-- ==== Sys2Proof/Word.lean ====
section
/-! DEFINITION. The value types of the block (spec R4): a byte, a 16-bit HalfFloat, a 32-bit ChannelValue pattern.
Everything a test could show wrong about a value (fields, classification, conversion) stands in Machine/. -/

namespace Sys2Proof

/-- A byte of a packet buffer, or the `cmd` field of a command (R4, R28). -/
abbrev Byte := BitVec 8

/-- A HalfFloat: 1 sign bit, 5 exponent bits, 10 mantissa bits (R4, R38). -/
abbrev Half := BitVec 16

/-- The 32-bit pattern of a ChannelValue; the block never does floating-point arithmetic on it (R4, R5, R37). -/
abbrev Word := BitVec 32

end Sys2Proof
end

