-- ==== Sys2Proof/Config.lean ====
section
/-! DEFINITION. What is fixed for one block (spec R3). Two of its four parameters are OPEN and stand here as
uninterpreted constants, so that no proof can see their values; `RX_MAX_LEN` is fixed; the fourth,
`SUBNORMAL_OFFSET`, stands beside the codec that uses it (Machine/Codec.lean). -/

namespace Sys2Proof

/-- The transport strategy held by the `MODE` bit (R3, R10): `0` packet mode, `1` delta mode. -/
inductive TxMode where
  | packet
  | delta
  deriving DecidableEq, Repr, Inhabited

/-- Parameter (1) of R3, OPEN (D17): the value of `MODE` at the first reset.
No body: a statement about it holds for either mode. Log entry 1. -/
opaque Config.mode : TxMode

/-- Parameter (2) of R3, OPEN (D18): the value of `TLM_EN` at the first reset.
No body: a statement about it holds for either value. Log entry 1. -/
opaque Config.tlmEnReset : Bool

/-- Parameter (3) of R3, `RX_MAX_LEN` = 255 (D23): the largest length the receive port can present. -/
def Config.rxMaxLen : Nat := 255

/-- "Packet length is always exactly 9 bytes" (R4, R39). -/
def Config.packetLen : Nat := 9

end Sys2Proof
end

