-- ==== Sys2Proof/Syntax.lean ====
section
/-! DEFINITION. The command tuple of the port (spec R28), the selectors (R31 to R33), and the instructions: one
constructor of `Instr` per row of spec/opcode_table.json, carrying the operands its format names (R29, R35). -/

namespace Sys2Proof

/-- A command on the command port (R28): the tuple (`cmd`, `din`, `rx_len`, `rx_data`). Every command carries all
four; an operation uses only those its format names. -/
structure Command where
  cmd    : Byte
  din    : Word
  rxLen  : BitVec 8
  rxData : List Byte
  deriving DecidableEq, Repr

/-- The four channels in wire order (R5, R31). -/
inductive Channel where
  | throttle | pitch | roll | yaw
  deriving DecidableEq, Repr

/-- The three acceleration axes (R32). -/
inductive Axis where
  | accX | accY | accZ
  deriving DecidableEq, Repr

/-- The closed enumeration of the telemetry fields, in the order of R33. -/
inductive TlmField where
  | pitch | armed | throttle | roll | yaw | accX | accY | accZ
  | estop | crashed | charging | charged | lowBattery
  deriving DecidableEq, Repr

/-- The rows of the opcode map (R30), without operands. -/
inductive Op where
  | f32ToF16 | f16ToF32 | setch | setacc | arm | disarm | estop | estopClr
  | encode | sync | decode | tlmEn | tlmDis | get
  deriving DecidableEq, Repr

/-- One decoded command. -/
inductive Instr where
  /-- `F32_TO_F16`: `x = din[31:0]` (R43). -/
  | f32ToF16 (x : Word)
  /-- `F16_TO_F32`: `h = din[15:0]` (R44). -/
  | f16ToF32 (h : Half)
  /-- `SETCH sel`: `v = din[31:0]` (R50). -/
  | setch (sel : Channel) (v : Word)
  /-- `SETACC sel`: `v = din[31:0]` (R62). -/
  | setacc (sel : Axis) (v : Word)
  /-- `ARM` (R51). -/
  | arm
  /-- `DISARM` (R52). -/
  | disarm
  /-- `ESTOP` (R53). -/
  | estop
  /-- `ESTOP_CLR` (R54). -/
  | estopClr
  /-- `ENCODE` (R55). -/
  | encode
  /-- `SYNC` (R64). -/
  | sync
  /-- `DECODE`: the packet operand, `rx_len` and the `rx_len` bytes of the `RX` space (R56, R17). -/
  | decode (rxLen : BitVec 8) (rxData : List Byte)
  /-- `TLM_EN` (R60). -/
  | tlmEn
  /-- `TLM_DIS` (R61). -/
  | tlmDis
  /-- `GET fid` (R63). -/
  | get (fid : TlmField)
  deriving DecidableEq, Repr

end Sys2Proof
end

