-- ==== Sys2Proof/WellFormed.lean ====
section
/-! DEFINITION. Well-formed commands and instructions. The selectors are closed enumerations, so the one thing left
to check is the packet operand: `rx_data` is `rx_len` bytes (spec R17, R28). Since `rx_len` is an 8-bit value this also
says that at most `RX_MAX_LEN` bytes are presented (R3). -/

namespace Sys2Proof

/-- The packet operand is `rx_len` bytes (R17, R28). -/
abbrev rxOperandOk (rxLen : BitVec 8) (rxData : List Byte) : Prop := rxData.length = rxLen.toNat

/-- A command the port can present (R28). -/
abbrev Command.WellFormed (c : Command) : Prop := rxOperandOk c.rxLen c.rxData

/-- An instruction whose operands the port can present: only `DECODE` has an operand to check. -/
abbrev Instr.WellFormed (i : Instr) : Prop :=
  match i with
  | .decode rxLen rxData => rxOperandOk rxLen rxData
  | .f32ToF16 _ | .f16ToF32 _ | .setch _ _ | .setacc _ _ | .arm | .disarm | .estop | .estopClr
  | .encode | .sync | .tlmEn | .tlmDis | .get _ => True

end Sys2Proof
end

