-- ==== Sys2Proof/Decode.lean ====
section
/-! DEFINITION. The command decoder, total on every command, and the encoder written from the same tables
(spec R29 to R35, opcode_table.json). A code the decoder rejects raises `IllegalCommand` when it is run (R34, R70);
the rejection carries a name that says which clause of R34 applies. -/

namespace Sys2Proof

/-- Why a command is illegal (R34). -/
inductive DecodeError where
  /-- `cmd` matches no row of R30. -/
  | unassignedCode
  /-- `0x17`: `SETACC` with `sel = 3` (R32). -/
  | axisSelector
  /-- `0x5D`..`0x5F`: `GET` with `fid` 13..15 (R33). -/
  | fieldSelector
  deriving DecidableEq, Repr

/-- The opcode map of R30: (row, match, mask); a `cmd` selects the row when `cmd & mask = match`. -/
def opcodeTable : List (Op × Byte × Byte) :=
  [(.f32ToF16, 0x01, 0xFF), (.f16ToF32, 0x02, 0xFF),
   (.setch, 0x10, 0xFC), (.setacc, 0x14, 0xFC)] ++
  [(.arm, 0x20, 0xFF), (.disarm, 0x21, 0xFF), (.estop, 0x22, 0xFF), (.estopClr, 0x23, 0xFF)] ++
  [(.encode, 0x30, 0xFF), (.sync, 0x31, 0xFF)] ++
  [(.decode, 0x40, 0xFF), (.tlmEn, 0x41, 0xFF), (.tlmDis, 0x42, 0xFF), (.get, 0x50, 0xF0)]

/-- `cmd & mask = match` (R30). -/
def rowMatches (cmd : Byte) (row : Op × Byte × Byte) : Bool := cmd &&& row.2.2 == row.2.1

/-- The row a `cmd` selects, before its selector condition is looked at. -/
def selectOp (cmd : Byte) : Option Op := (opcodeTable.find? (rowMatches cmd)).map (·.1)

/-- The `match` value of a row (R30). -/
def baseCode (op : Op) : Byte := ((opcodeTable.find? (·.1 == op)).map (·.2.1)).getD 0

/-- Channel numbers (R31). -/
def Channel.code : Channel → BitVec 2
  | .throttle => 0
  | .pitch => 1
  | .roll => 2
  | .yaw => 3

/-- The channel selector `cmd[1:0]` of `SETCH`; all four values are legal (R31). -/
def Channel.ofCode (sel : BitVec 2) : Channel :=
  if sel = 0 then .throttle else if sel = 1 then .pitch else if sel = 2 then .roll else .yaw

/-- Axis numbers (R32). -/
def Axis.code : Axis → BitVec 2
  | .accX => 0
  | .accY => 1
  | .accZ => 2

/-- The axis selector `cmd[1:0]` of `SETACC`; `3` is illegal (R32). -/
def Axis.ofCode (sel : BitVec 2) : Option Axis :=
  if sel = 0 then some .accX else if sel = 1 then some .accY else if sel = 2 then some .accZ else none

/-- Telemetry field numbers (R33). -/
def TlmField.code : TlmField → BitVec 4
  | .pitch => 0
  | .armed => 1
  | .throttle => 2
  | .roll => 3
  | .yaw => 4
  | .accX => 5
  | .accY => 6
  | .accZ => 7
  | .estop => 8
  | .crashed => 9
  | .charging => 10
  | .charged => 11
  | .lowBattery => 12

/-- The fields in the order of R33. -/
def TlmField.all : List TlmField :=
  [.pitch, .armed, .throttle, .roll, .yaw, .accX, .accY, .accZ] ++
  [.estop, .crashed, .charging, .charged, .lowBattery]

/-- The field selector `cmd[3:0]` of `GET`; 13, 14 and 15 are illegal (R33). -/
def TlmField.ofCode (fid : BitVec 4) : Option TlmField := TlmField.all.find? (·.code == fid)

/-- Operand assembly (R29, R35): the selectors are unsigned fields of `cmd`; `F16_TO_F32` takes `din[15:0]`; `SETCH`,
`SETACC` and `F32_TO_F16` take all of `din`; `DECODE` takes the packet operand. Everything else of the command is
ignored (D35). -/
def assemble (op : Op) (c : Command) : Except DecodeError Instr :=
  match op with
  | .f32ToF16 => .ok (.f32ToF16 c.din)
  | .f16ToF32 => .ok (.f16ToF32 (c.din.extractLsb' 0 16))
  | .setch => .ok (.setch (Channel.ofCode (c.cmd.extractLsb' 0 2)) c.din)
  | .setacc =>
    match Axis.ofCode (c.cmd.extractLsb' 0 2) with
    | some sel => .ok (.setacc sel c.din)
    | none => .error .axisSelector
  | .arm => .ok .arm
  | .disarm => .ok .disarm
  | .estop => .ok .estop
  | .estopClr => .ok .estopClr
  | .encode => .ok .encode
  | .sync => .ok .sync
  | .decode => .ok (.decode c.rxLen c.rxData)
  | .tlmEn => .ok .tlmEn
  | .tlmDis => .ok .tlmDis
  | .get =>
    match TlmField.ofCode (c.cmd.extractLsb' 0 4) with
    | some fid => .ok (.get fid)
    | none => .error .fieldSelector

/-- The decoder (R30, R34). -/
def decode (c : Command) : Except DecodeError Instr :=
  match selectOp c.cmd with
  | some op => assemble op c
  | none => .error .unassignedCode

/-- A command of format N or S: no operand (R29). -/
def codeOnly (cmd : Byte) : Command := { cmd := cmd, din := 0, rxLen := 0, rxData := [] }

/-- A command of format D or SD: `din` is its operand (R29). -/
def codeWithData (cmd : Byte) (din : Word) : Command := { cmd := cmd, din := din, rxLen := 0, rxData := [] }

/-- The encoder: the command of an instruction, every operand its format does not use at zero. -/
def encode (i : Instr) : Command :=
  match i with
  | .f32ToF16 x => codeWithData (baseCode .f32ToF16) x
  | .f16ToF32 h => codeWithData (baseCode .f16ToF32) (h.setWidth 32)
  | .setch sel v => codeWithData (baseCode .setch ||| sel.code.setWidth 8) v
  | .setacc sel v => codeWithData (baseCode .setacc ||| sel.code.setWidth 8) v
  | .arm => codeOnly (baseCode .arm)
  | .disarm => codeOnly (baseCode .disarm)
  | .estop => codeOnly (baseCode .estop)
  | .estopClr => codeOnly (baseCode .estopClr)
  | .encode => codeOnly (baseCode .encode)
  | .sync => codeOnly (baseCode .sync)
  | .decode rxLen rxData => { cmd := baseCode .decode, din := 0, rxLen := rxLen, rxData := rxData }
  | .tlmEn => codeOnly (baseCode .tlmEn)
  | .tlmDis => codeOnly (baseCode .tlmDis)
  | .get fid => codeOnly (baseCode .get ||| fid.code.setWidth 8)

/-- The command that a word of spec/opcode_table.json stands for: the table's `nbits` = 8 bits are `cmd`; the operand
fields `din`, `rx_len` and `rx_data`, to which the table gives no bits, are zero and empty. -/
def tableWordCommand (nbits w : Nat) : Command := codeOnly (BitVec.ofNat 8 (w % 2 ^ nbits))

/-- What the decoder reads from a word of the opcode table (`none`: an illegal command). -/
def decodeTableWord (nbits w : Nat) : Option Instr :=
  match decode (tableWordCommand nbits w) with
  | .ok i => some i
  | .error _ => none

end Sys2Proof
end

