-- ==== Sys2Proof/Machine/State.lean ====
section
/-! DEFINITION. The state of the block as plain data (spec R5 to R10), its responses and exceptions (R28, R36, R40,
R68), the inputs of its environment (R24, R73, R81), and the state after reset (R16). -/

namespace Sys2Proof.Machine

/-- Four values, one per channel, in wire order: the indexed views `CS.ch[i]`, `LS.ch[i]`, `act_val[i]` (R5, R6, R40). -/
structure Channels (α : Type) where
  throttle : α
  pitch    : α
  roll     : α
  yaw      : α
  deriving DecidableEq, Repr

/-- The three acceleration registers (R8). -/
structure Axes (α : Type) where
  accX : α
  accY : α
  accZ : α
  deriving DecidableEq, Repr

/-- ControlState `CS` (R5): the two latches and the four channel registers. -/
structure ControlState where
  armed : Bool
  estop : Bool
  ch    : Channels Word
  deriving DecidableEq, Repr

/-- The one-shot flags `SEND_ARM`, `SEND_DISARM`, `SEND_ESTOP` (R7). -/
structure SendFlags where
  arm    : Bool
  disarm : Bool
  estop  : Bool
  deriving DecidableEq, Repr

/-- TelemetryState `TS` (R8): seven ChannelValue registers and six booleans. -/
structure TelemetryState where
  ch         : Channels Word
  acc        : Axes Word
  armed      : Bool
  estop      : Bool
  crashed    : Bool
  charging   : Bool
  charged    : Bool
  lowBattery : Bool
  deriving DecidableEq, Repr

/-- The `TX` space (R9, R17): (address, byte) pairs in canonical form, addresses strictly rising and below 9, no entry
equal to the reset byte. Its operations and its well-formedness stand in Machine/Ops.lean. -/
abbrev Memory := List Host.Cell

/-- What an unlisted address of `TX` reads as: `TXBUF[i] = 0x00` after reset (R16). -/
def resetByte : Byte := 0

/-- The three synchronous exceptions (R68). -/
inductive Exception where
  /-- Code 1, raised by `DECODE` (R69). -/
  | malformedPacket
  /-- Code 2, raised by command decode (R70). -/
  | illegalCommand
  /-- Code 3, raised by `ENCODE` and `SYNC` (R71). -/
  | modeViolation
  deriving DecidableEq, Repr

/-- The result of `SYNC` (R40): the 7-bit mask, and the value of each channel that is to be sent. `act_val[i]` is
"defined only when act_mask[3+i] = 1", so it is present exactly then. -/
structure ActionSet where
  mask : BitVec 7
  val  : Channels (Option Word)
  deriving DecidableEq, Repr

/-- A response (R28, R36). It has only the fields the operation's rule names (93_implementation_defined.md U9). -/
inductive Response where
  /-- `status = OK` and nothing else. -/
  | ok
  /-- `status = OK`, `dout`: the codec operations and `GET`. -/
  | data (dout : Word)
  /-- `status = OK`, `tx_data`: `ENCODE`. -/
  | packet (txData : List Byte)
  /-- `status = OK`, `act_mask` and `act_val`: `SYNC`. -/
  | actions (a : ActionSet)
  /-- A non-zero `status`. -/
  | error (e : Exception)
  deriving DecidableEq, Repr

/-- The two agents that issue commands (R73). -/
inductive Agent where
  | host
  | rx
  deriving DecidableEq, Repr

/-- What the environment does to the block: an agent presents a command, or reset is applied (R73, R81). The tag of a
command says who issued it; the port does not carry it to the block (R28). -/
inductive Input where
  | command (a : Agent) (c : Command)
  | reset (mode : TxMode) (tlmEn : Bool)
  deriving DecidableEq, Repr

/-- The faults of a step. -/
inductive Fault where
  /-- Raised by `MemRead` on the `RX` space (Machine/Ops.lean, called by `DECODE` only) for an address at which the
  operand holds no byte; R17 gives the space exactly the presented bytes. SAFE: it stops only on an operand with
  `rx_len = 9` and fewer than nine bytes, which no port presents and which `WellFormed` refuses; for a well-formed
  operand it is never raised ("never reads out of bounds", R69). Log entry 7. -/
  | rxOutOfBounds (offset : Nat)
  deriving DecidableEq, Repr

/-- The refusals of a step. -/
inductive Refusal where
  /-- Raised by an arm of `exec` for an instruction that has no meaning yet; no arm does. SAFE. -/
  | notModelled (mnemonic : String)
  deriving DecidableEq, Repr

/-- The state. The first seven fields are the 565 bits the spec gives the block; the last two are the MODEL'S own:
its environment's input list (log entry 2) and what stands on the response port after a step (log entry 4). -/
structure State where
  cs       : ControlState
  ls       : Channels Word
  send     : SendFlags
  ts       : TelemetryState
  txbuf    : Memory
  mode     : TxMode
  tlmEn    : Bool
  inputs   : List Input
  response : Option Response
  deriving DecidableEq, Repr

/-- Four zero words (R16: the pattern of +0.0). -/
def Channels.zero : Channels Word := { throttle := 0, pitch := 0, roll := 0, yaw := 0 }

/-- The state right after a reset that samples these parameters (R16, R81), with no input pending and no response. -/
def State.resetWith (mode : TxMode) (tlmEn : Bool) : State where
  cs := { armed := false, estop := false, ch := Channels.zero }
  ls := Channels.zero
  send := { arm := false, disarm := false, estop := false }
  ts :=
    { ch := Channels.zero, acc := { accX := 0, accY := 0, accZ := 0 }
      armed := false, estop := false, crashed := false, charging := false, charged := false, lowBattery := false }
  txbuf := []
  mode := mode
  tlmEn := tlmEn
  inputs := []
  response := none

/-- The state after the first reset: `MODE` and `TLM_EN` from the two open parameters (R3, R16). -/
def State.reset : State := State.resetWith Config.mode Config.tlmEnReset

end Sys2Proof.Machine
end

