-- ==== Sys2Proof/Machine/Formats.lean ====
section
/-! DEFINITION. The two number formats (spec R37, R38): fields, classification, and the magnitude a pattern denotes.
The block itself never computes a magnitude; the magnitudes are what the laws of the codec (R45, R46) are stated in.
They are natural numbers in units of 2^-149, the weight of the last bit of a float32 subnormal, so they are exact. -/

namespace Sys2Proof.Machine

/-- Sign `x[31]` of a float32 pattern (R37). -/
def sign32 (x : Word) : Bool := x.getLsbD 31

/-- Exponent `x[30:23]` of a float32 pattern, bias 127 (R37). -/
def exp32 (x : Word) : BitVec 8 := x.extractLsb' 23 8

/-- Mantissa `x[22:0]` of a float32 pattern (R37). -/
def man32 (x : Word) : BitVec 23 := x.extractLsb' 0 23

/-- Sign `h[15]` of a HalfFloat (R38). -/
def sign16 (h : Half) : Bool := h.getLsbD 15

/-- Exponent `h[14:10]` of a HalfFloat, bias 15 (R38). -/
def exp16 (h : Half) : BitVec 5 := h.extractLsb' 10 5

/-- Mantissa `h[9:0]` of a HalfFloat (R38). -/
def man16 (h : Half) : BitVec 10 := h.extractLsb' 0 10

/-- `is_nan32` (R37): exponent 255 and mantissa not 0. -/
def isNan32 (x : Word) : Bool := exp32 x == 255 && man32 x != 0

/-- `is_zero32` (R37): `x[30:0] = 0`, either sign. -/
def isZero32 (x : Word) : Bool := x.extractLsb' 0 31 == 0

/-- A pattern that denotes a number: its exponent field is not 255 (R37, R45). -/
def isFinite32 (x : Word) : Bool := exp32 x != 255

/-- The magnitude of a finite float32 pattern in units of 2^-149 (R37): exponent 0 is `m * 2^-149`, exponent `e` in
1..254 is `(1 + m/2^23) * 2^(e-127) = (2^23 + m) * 2^(e-1) * 2^-149`. Of no meaning for exponent 255. -/
def magnitude32 (x : Word) : Nat :=
  if exp32 x = 0 then (man32 x).toNat else (2 ^ 23 + (man32 x).toNat) * 2 ^ ((exp32 x).toNat - 1)

/-- The magnitude the codec gives a HalfFloat, in the same units (R38): exponent 0 is `m * 2^-24`, every exponent `e`
in 1..31 (31 is one more normal binade) is `(1 + m/1024) * 2^(e-15) = (1024 + m) * 2^(e-1) * 2^-24`; and
`2^-24 = 2^125 * 2^-149`. -/
def magnitude16 (h : Half) : Nat :=
  (if exp16 h = 0 then (man16 h).toNat else (1024 + (man16 h).toNat) * 2 ^ ((exp16 h).toNat - 1)) * 2 ^ 125

/-- The codec grid (R38): the magnitude of the code `k`, for `k` in 0 .. 0x7FFF. -/
def grid (k : Nat) : Nat := magnitude16 (BitVec.ofNat 16 k)

end Sys2Proof.Machine
end

