-- ==== Sys2Proof/Machine/Codec.lean ====
section
/-! DEFINITION. The Half-Float Codec (spec R43, R44, R47): two pure functions on bit patterns, reached by the two
stand-alone operations and by `ENCODE` and `DECODE`. -/

namespace Sys2Proof.Machine

/-- Bit `i` of a `w`-bit value set to `b`, all other bits zero: `zext(b) << i`. -/
def bitAt (w i : Nat) (b : Bool) : BitVec w := (BitVec.ofBool b).setWidth w <<< i

/-- The rounding bias of R43, half the weight of the 13 discarded mantissa bits. -/
def roundingBias : Word := 0x00001000#32

/-- Parameter (4) of R3, `SUBNORMAL_OFFSET` (D6): the implicit leading one less the rounding bias already added. -/
def subnormalOffset : Word := 0x007FF000#32

/-- The magnitude bits of `f32_to_f16`, from the exponent and mantissa of the biased word (R43): saturate, normal,
subnormal, underflow, in this order (D8, D9). -/
def halfMagnitude (e : BitVec 8) (m : BitVec 23) : Half :=
  if e.toNat > 143 then 0x7FFF#16
  else if e.toNat > 112 then ((BitVec.ofNat 16 (e.toNat - 112) <<< 10) &&& 0x7C00#16) ||| (m >>> 13).setWidth 16
  else if e.toNat > 101 then
    let t : Word := (subnormalOffset + m.setWidth 32) >>> (125 - e.toNat)
    ((t + 1#32) >>> 1).setWidth 16
  else 0#16

/-- `f32_to_f16` (R43). The sum wraps modulo 2^32 (D5), and sign, exponent and mantissa are all taken from it (D36). -/
def f32ToF16 (x : Word) : Half :=
  let b : Word := x + roundingBias
  bitAt 16 15 (sign32 b) ||| halfMagnitude (exp32 b) (man32 b)

/-- The largest `i ≤ n` with `m[i] = 1`, or 0. -/
def msbIndexFrom (m : BitVec 10) : Nat → Nat
  | 0 => 0
  | n + 1 => if m.getLsbD (n + 1) then n + 1 else msbIndexFrom m n

/-- `msb_index` of a 10-bit mantissa (00_scope.md section 4): the index of its highest set bit, 0..9. -/
def msbIndex (m : BitVec 10) : Nat := msbIndexFrom m 9

/-- `f16_to_f32` (R44): normal for every non-zero exponent (31 included), signed zero, or a subnormal promoted by the
index of its highest set bit (D7). -/
def f16ToF32 (h : Half) : Word :=
  let s : Word := bitAt 32 31 (sign16 h)
  let m := man16 h
  if exp16 h ≠ 0 then s ||| (BitVec.ofNat 32 ((exp16 h).toNat + 112) <<< 23) ||| (m.setWidth 32 <<< 13)
  else if m = 0 then s
  else
    let p := msbIndex m
    s ||| (BitVec.ofNat 32 (103 + p) <<< 23) ||| ((m.setWidth 32 <<< (23 - p)) &&& 0x007FFFFF#32)

end Sys2Proof.Machine
end

