-- ==== Sys2Proof/Machine/Operands.lean ====
section
/-! DEFINITION. The indexed views of the registers: `CS.ch[i]`, `LS.ch[i]` (spec R5, R6), `TS.field[i]` (R8, R33), and
the acceleration registers by axis (R32). -/

namespace Sys2Proof.Machine

/-- `ch[sel]` (R5, R31). -/
def Channels.get {α : Type} (ch : Channels α) (sel : Channel) : α :=
  match sel with
  | .throttle => ch.throttle
  | .pitch => ch.pitch
  | .roll => ch.roll
  | .yaw => ch.yaw

/-- `ch[sel] <- v` (R5, R31). -/
def Channels.set {α : Type} (ch : Channels α) (sel : Channel) (v : α) : Channels α :=
  match sel with
  | .throttle => { ch with throttle := v }
  | .pitch => { ch with pitch := v }
  | .roll => { ch with roll := v }
  | .yaw => { ch with yaw := v }

/-- The acceleration register of an axis (R32). -/
def Axes.get {α : Type} (acc : Axes α) (sel : Axis) : α :=
  match sel with
  | .accX => acc.accX
  | .accY => acc.accY
  | .accZ => acc.accZ

/-- The pseudocode of R62: one acceleration register is written. -/
def Axes.set {α : Type} (acc : Axes α) (sel : Axis) (v : α) : Axes α :=
  match sel with
  | .accX => { acc with accX := v }
  | .accY => { acc with accY := v }
  | .accZ => { acc with accZ := v }

/-- `zext_32` of a boolean register (R63, D14). -/
def boolWord (b : Bool) : Word := bitAt 32 0 b

/-- `TS.field[fid]` as `GET` returns it (R63): a ChannelValue as its pattern, a boolean as 0 or 1. -/
def TelemetryState.field (ts : TelemetryState) (fid : TlmField) : Word :=
  match fid with
  | .pitch => ts.ch.pitch
  | .armed => boolWord ts.armed
  | .throttle => ts.ch.throttle
  | .roll => ts.ch.roll
  | .yaw => ts.ch.yaw
  | .accX => ts.acc.accX
  | .accY => ts.acc.accY
  | .accZ => ts.acc.accZ
  | .estop => boolWord ts.estop
  | .crashed => boolWord ts.crashed
  | .charging => boolWord ts.charging
  | .charged => boolWord ts.charged
  | .lowBattery => boolWord ts.lowBattery

end Sys2Proof.Machine
end

