-- ==== Sys2Proof/Machine/Flags.lean ====
section
/-! DEFINITION. Flag computations: the two latch functions of the decoder (spec R57, R58), the flag byte of a
transmitted packet (R55), the synchronizer's comparison (R65) and its action set (R40, R64). -/

namespace Sys2Proof.Machine

/-- `estop_latch_next` (R57), in the literal form DOC00 gives. -/
def estopLatchNext (old estopIn : Bool) : Bool :=
  (old && !estopIn) || (!old && estopIn) || (old && estopIn)

/-- `armed_latch_next` (R58), in the literal form DOC00 gives. -/
def armedLatchNext (old armedIn : Bool) : Bool :=
  (old && !armedIn) || (old && armedIn)

/-- Byte 0 of a control packet (R55): bit 0 armed, bit 1 estop, bits 7..2 zero; bit 0 is the least significant bit
(R19, D4). -/
def controlFlags (cs : ControlState) : Byte := bitAt 8 1 cs.estop ||| bitAt 8 0 cs.armed

/-- `fneq` (R65): NaN differs from everything, the two zeros are equal, other patterns are compared bit by bit (D15). -/
def fneq (a b : Word) : Bool :=
  isNan32 a || isNan32 b || (a != b && !(isZero32 a && isZero32 b))

/-- Which channels `SYNC` reports (R64). -/
def changedChannels (cs ls : Channels Word) : Channels Bool where
  throttle := fneq cs.throttle ls.throttle
  pitch := fneq cs.pitch ls.pitch
  roll := fneq cs.roll ls.roll
  yaw := fneq cs.yaw ls.yaw

/-- `act_mask` (R40): bits 0..2 the one-shot flags, bits 3..6 the channels in wire order. -/
def actionMask (send : SendFlags) (changed : Channels Bool) : BitVec 7 :=
  bitAt 7 0 send.arm ||| bitAt 7 1 send.disarm ||| bitAt 7 2 send.estop |||
  bitAt 7 3 changed.throttle ||| bitAt 7 4 changed.pitch ||| bitAt 7 5 changed.roll ||| bitAt 7 6 changed.yaw

/-- A value that is defined only when its mask bit is 1 (R40). -/
def valueWhen (defined : Bool) (v : Word) : Option Word := if defined then some v else none

/-- The action set of one `SYNC` (R40, R64). -/
def actionSet (send : SendFlags) (cs ls : Channels Word) : ActionSet :=
  let changed := changedChannels cs ls
  { mask := actionMask send changed
    val :=
      { throttle := valueWhen changed.throttle cs.throttle
        pitch := valueWhen changed.pitch cs.pitch
        roll := valueWhen changed.roll cs.roll
        yaw := valueWhen changed.yaw cs.yaw } }

end Sys2Proof.Machine
end

