-- ==== Sys2Proof/Machine/Ops.lean ====
section
/-! DEFINITION. The named operations every meaning uses: the `TX` and `RX` accesses (spec R17, R18), the response
(R28, R36), raising an exception (R75), and taking the next input of the environment (R24, R81). -/

namespace Sys2Proof.Machine

/-! ### The TX space: TXBUF -/

/-- The number of bytes of `TX` (R17). -/
def txSize : Nat := 9

/-- The byte held at an address of `TX`; an unlisted address reads as the reset byte. -/
def Memory.byteAt (m : Memory) (a : Nat) : Byte :=
  match m with
  | [] => resetByte
  | (k, b) :: rest => if a = k then b else Memory.byteAt rest a

/-- Reading one byte of `TX`; an address outside 0..8 does not exist (R17). No operation of the block performs it: it
is what the transmit output and the statements read (R18). -/
def Memory.readByte (m : Memory) (a : Nat) : Option Byte := if a < txSize then some (Memory.byteAt m a) else none

/-- Writing one byte, keeping the canonical form. -/
def Memory.setByte (m : Memory) (a : Nat) (v : Byte) : Memory :=
  match m with
  | [] => if v = resetByte then [] else [(a, v)]
  | (k, b) :: rest =>
    if a < k then (if v = resetByte then (k, b) :: rest else (a, v) :: (k, b) :: rest)
    else if a = k then (if v = resetByte then rest else (a, v) :: rest)
    else (k, b) :: Memory.setByte rest a v

/-- The canonical form from an address on: addresses strictly rising and below 9, no reset byte listed. -/
def Memory.wfFrom (lo : Nat) (m : Memory) : Bool :=
  match m with
  | [] => true
  | (k, b) :: rest => decide (lo ≤ k) && decide (k < txSize) && b != resetByte && Memory.wfFrom (k + 1) rest

/-- The canonical form of `TX`. -/
def Memory.wf (m : Memory) : Bool := Memory.wfFrom 0 m

/-- `MemWrite(TX+i, 1, v)` (R18). The address type admits exactly the addresses of R17. -/
def memWrite8 (m : Memory) (i : Fin 9) (v : Byte) : Memory := m.setByte i v

/-- `MemWrite(TX+i, 2, v)` (R18): the high byte at `TX+i`, the low byte at `TX+i+1`; both addresses are in `TX`. -/
def memWrite16 (m : Memory) (i : Fin 8) (v : Half) : Memory :=
  (m.setByte i (v.extractLsb' 8 8)).setByte (i + 1) (v.extractLsb' 0 8)

/-- `TXBUF[0..8]`, as it stands on the transmit output (R9). -/
def Memory.bytes (m : Memory) : List Byte := (List.range txSize).map (Memory.byteAt m)

/-! ### The RX space: the packet operand of DECODE -/

/-- `MemRead(RX+i, 1)` (R18); an address at which the operand holds no byte does not exist (R17). -/
def memRead8 (rx : List Byte) (i : Nat) : Except Fault Byte :=
  match rx[i]? with
  | some b => .ok b
  | none => .error (.rxOutOfBounds i)

/-- `byte(RX+i) :: byte(RX+i+1)` (R18): the first byte in the high bits. -/
def concatBytes (hi lo : Byte) : Half := hi ++ lo

/-- `MemRead(RX+i, 2)` (R18): big-endian, the byte at the lower address is the more significant half. -/
def memRead16 (rx : List Byte) (i : Nat) : Except Fault Half :=
  match memRead8 rx i with
  | .error f => .error f
  | .ok hi =>
    match memRead8 rx (i + 1) with
    | .error f => .error f
    | .ok lo => .ok (concatBytes hi lo)

/-! ### Responses and exceptions -/

/-- The status code of an exception (R36, R68). -/
def Exception.code : Exception → BitVec 2
  | .malformedPacket => 1
  | .illegalCommand => 2
  | .modeViolation => 3

/-- The `status` field of a response (R36). -/
def Response.status : Response → BitVec 2
  | .ok => 0
  | .data _ => 0
  | .packet _ => 0
  | .actions _ => 0
  | .error e => e.code

/-- The response of an operation is put on the response port (R28). -/
def State.respond (s : State) (r : Response) : State := { s with response := some r }

/-- Taking an exception (R75), on the state as it was before the operation: every register keeps its value, nothing is
saved, the response carries the status code. There is no return operation and nothing to restore (R76): the next
command is executed as if the failing one had never been issued. -/
def raiseException (e : Exception) (s : State) : State := s.respond (.error e)

/-! ### Inputs -/

/-- What the block takes from its environment next. -/
inductive Taken where
  /-- No input: the port is idle. -/
  | idle
  /-- Reset is applied (R81). -/
  | reset (mode : TxMode) (tlmEn : Bool) (rest : List Input)
  /-- A command is accepted; the port does not say from whom (R28). -/
  | command (c : Command) (rest : List Input)
  deriving DecidableEq, Repr

/-- The next input, in the order the environment presents them (R24, R28). -/
def takeInput (s : State) : Taken :=
  match s.inputs with
  | [] => .idle
  | .reset mode tlmEn :: rest => .reset mode tlmEn rest
  | .command _ c :: rest => .command c rest

/-- A step with no input: nothing changes, and no response stands on the port. Log entry 3. -/
def idleStep (s : State) : State := { s with response := none }

/-- Reset (R81): every register takes its reset value, `MODE` and `TLM_EN` from the parameters sampled now; no
response; no state survives. What the environment does afterwards is not state of the block. -/
def applyReset (mode : TxMode) (tlmEn : Bool) (rest : List Input) : State :=
  { State.resetWith mode tlmEn with inputs := rest }

/-- The state in which an accepted command is executed: the command has left the port. -/
def State.accepted (s : State) (rest : List Input) : State := { s with inputs := rest }

/-- The agent that issues a command (R73): `DECODE` is the RX agent's, every other operation the HOST agent's. An illegal
`cmd` counts as the HOST agent's: R73 assigns legal operations only, so this is a DESIGN CHOICE of the model, log entry
11. -/
def issuer (c : Command) : Agent := if selectOp c.cmd = some .decode then .rx else .host

/-- A command presented next, before every other input. -/
def State.present (s : State) (c : Command) : State := { s with inputs := .command (issuer c) c :: s.inputs }

end Sys2Proof.Machine
end

