-- ==== Sys2Proof/Machine/ControlPacket.lean ====
section
/-! DEFINITION. The control state operations and the Control Packet Encoder (spec R50 to R55, R71). -/

namespace Sys2Proof.Machine

/-- `SETCH sel` (R50): `CS.ch[sel] <- v`; no range check, no flag. -/
def execSetch (sel : Channel) (v : Word) (s : State) : Host.Outcome State Fault Refusal :=
  .next ({ s with cs := { s.cs with ch := s.cs.ch.set sel v } }.respond .ok)

/-- `ARM` (R51): `CS.armed <- 1; SEND_ARM <- 1`. -/
def execArm (s : State) : Host.Outcome State Fault Refusal :=
  .next ({ s with cs := { s.cs with armed := true }, send := { s.send with arm := true } }.respond .ok)

/-- `DISARM` (R52): `CS.armed <- 0; SEND_DISARM <- 1`. -/
def execDisarm (s : State) : Host.Outcome State Fault Refusal :=
  .next ({ s with cs := { s.cs with armed := false }, send := { s.send with disarm := true } }.respond .ok)

/-- `ESTOP` (R53): `CS.estop <- 1; SEND_ESTOP <- 1`. -/
def execEstop (s : State) : Host.Outcome State Fault Refusal :=
  .next ({ s with cs := { s.cs with estop := true }, send := { s.send with estop := true } }.respond .ok)

/-- `ESTOP_CLR` (R54): `CS.estop <- 0`; no flag is set or cleared. -/
def execEstopClr (s : State) : Host.Outcome State Fault Refusal :=
  .next ({ s with cs := { s.cs with estop := false } }.respond .ok)

/-- The five writes of R55, in its order. -/
def encodePacket (cs : ControlState) (m : Memory) : Memory :=
  let m := memWrite8 m 0 (controlFlags cs)
  let m := memWrite16 m 1 (f32ToF16 cs.ch.throttle)
  let m := memWrite16 m 3 (f32ToF16 cs.ch.pitch)
  let m := memWrite16 m 5 (f32ToF16 cs.ch.roll)
  memWrite16 m 7 (f32ToF16 cs.ch.yaw)

/-- `ENCODE` in packet mode (R55): `TXBUF` is rewritten whole and returned as `tx_data`. -/
def encodeState (s : State) : State :=
  let tx := encodePacket s.cs s.txbuf
  { s with txbuf := tx }.respond (.packet tx.bytes)

/-- `ENCODE` (R55, R71): `ModeViolation` in delta mode. -/
def execEncode (s : State) : Host.Outcome State Fault Refusal :=
  .next (if s.mode = .packet then encodeState s else raiseException .modeViolation s)

end Sys2Proof.Machine
end

