-- ==== Sys2Proof/Machine/HalfFloat.lean ====
section
/-! DEFINITION. The two stand-alone codec operations (spec R43, R44, R49). -/

namespace Sys2Proof.Machine

/-- `F32_TO_F16` (R43): `dout = zext_32(f32_to_f16(x))`; no state is read or written. -/
def execF32ToF16 (x : Word) (s : State) : Host.Outcome State Fault Refusal :=
  .next (s.respond (.data ((f32ToF16 x).setWidth 32)))

/-- `F16_TO_F32` (R44): `dout = f16_to_f32(h)`; no state is read or written. -/
def execF16ToF32 (h : Half) (s : State) : Host.Outcome State Fault Refusal :=
  .next (s.respond (.data (f16ToF32 h)))

end Sys2Proof.Machine
end

