-- ==== Sys2Proof/Machine/Synchronizer.lean ====
section
/-! DEFINITION. The State Synchronizer (spec R64, R71). -/

namespace Sys2Proof.Machine

/-- No one-shot flag pending (R7). -/
def SendFlags.cleared : SendFlags := { arm := false, disarm := false, estop := false }

/-- `SYNC` in delta mode (R64): the action set is computed from the state as it was; the three flags are cleared, and
`LS.ch` takes all 32 bits of every `CS.ch`, sent or not. -/
def syncState (s : State) : State :=
  { s with send := SendFlags.cleared, ls := s.cs.ch }.respond (.actions (actionSet s.send s.cs.ch s.ls))

/-- `SYNC` (R64, R71): `ModeViolation` in packet mode. -/
def execSync (s : State) : Host.Outcome State Fault Refusal :=
  .next (if s.mode = .delta then syncState s else raiseException .modeViolation s)

end Sys2Proof.Machine
end

