-- ==== Sys2Proof/Machine/Telemetry.lean ====
section
/-! DEFINITION. The Telemetry Packet Decoder and the telemetry read-out (spec R56 to R63, R69). -/

namespace Sys2Proof.Machine

/-- The five fields of a received packet (R39). -/
structure RxPacket where
  flags    : Byte
  throttle : Half
  pitch    : Half
  roll     : Half
  yaw      : Half
  deriving DecidableEq, Repr

/-- The five reads of R56, in its order. -/
def readPacket (rx : List Byte) : Except Fault RxPacket := do
  let flags ← memRead8 rx 0
  let throttle ← memRead16 rx 1
  let pitch ← memRead16 rx 3
  let roll ← memRead16 rx 5
  let yaw ← memRead16 rx 7
  return { flags, throttle, pitch, roll, yaw }

/-- The telemetry registers after an admitted packet (R56): raw overwrite of the six booleans (R59, bits 6 and 7
ignored) and of the four channels; the acceleration registers are not touched. -/
def TelemetryState.takePacket (ts : TelemetryState) (p : RxPacket) : TelemetryState where
  ch :=
    { throttle := f16ToF32 p.throttle, pitch := f16ToF32 p.pitch
      roll := f16ToF32 p.roll, yaw := f16ToF32 p.yaw }
  acc := ts.acc
  armed := p.flags.getLsbD 0
  estop := p.flags.getLsbD 1
  crashed := p.flags.getLsbD 2
  charging := p.flags.getLsbD 3
  charged := p.flags.getLsbD 4
  lowBattery := p.flags.getLsbD 5

/-- The control-side latches after an admitted packet (R57, R58). -/
def ControlState.mergeLatches (cs : ControlState) (p : RxPacket) : ControlState :=
  { cs with
    estop := estopLatchNext cs.estop (p.flags.getLsbD 1)
    armed := armedLatchNext cs.armed (p.flags.getLsbD 0) }

/-- An admitted packet (R56). -/
def admitPacket (p : RxPacket) (s : State) : State :=
  { s with ts := s.ts.takePacket p, cs := s.cs.mergeLatches p }.respond .ok

/-- `DECODE` when the packet is not admitted (R56): with `TLM_EN = 0`, tested first, it is inert and answers `OK`
(D21); otherwise the length is not 9 and `MalformedPacket` is raised (R69). No byte of `RX` is read. -/
def rejectPacket (s : State) : State :=
  if s.tlmEn then raiseException .malformedPacket s else s.respond .ok

/-- `DECODE` (R56). `RX` is read only when telemetry is enabled and the length is 9. -/
def execDecode (rxLen : BitVec 8) (rxData : List Byte) (s : State) : Host.Outcome State Fault Refusal :=
  if rxLen.toNat = Config.packetLen ∧ s.tlmEn = true then
    match readPacket rxData with
    | .ok p => .next (admitPacket p s)
    | .error f => .fault f
  else .next (rejectPacket s)

/-- `TLM_EN` (R60): `TLM_EN <- 1`; `TS` is not changed. -/
def execTlmEn (s : State) : Host.Outcome State Fault Refusal :=
  .next ({ s with tlmEn := true }.respond .ok)

/-- `TLM_DIS` (R61): `TLM_EN <- 0`; `TS` keeps its content. -/
def execTlmDis (s : State) : Host.Outcome State Fault Refusal :=
  .next ({ s with tlmEn := false }.respond .ok)

/-- `SETACC sel` (R62): one acceleration register is written; no range check, whatever `TLM_EN` and `MODE` hold. -/
def execSetacc (sel : Axis) (v : Word) (s : State) : Host.Outcome State Fault Refusal :=
  .next ({ s with ts := { s.ts with acc := s.ts.acc.set sel v } }.respond .ok)

/-- `GET fid` (R63): `dout = TS.field[fid]`; no state is changed. -/
def execGet (fid : TlmField) (s : State) : Host.Outcome State Fault Refusal :=
  .next (s.respond (.data (s.ts.field fid)))

end Sys2Proof.Machine
end

