-- ==== Sys2Proof/Machine/Dispatch.lean ====
section
/-! DEFINITION. One arm per instruction, each one call of its meaning. -/

namespace Sys2Proof.Machine

def exec (i : Instr) (s : State) : Host.Outcome State Fault Refusal :=
  match i with
  -- Half-Float Codec
  | .f32ToF16 x => Sys2Proof.Machine.execF32ToF16 x s
  | .f16ToF32 h => Sys2Proof.Machine.execF16ToF32 h s
  -- control state
  | .setch sel v => Sys2Proof.Machine.execSetch sel v s
  | .setacc sel v => Sys2Proof.Machine.execSetacc sel v s
  | .arm => Sys2Proof.Machine.execArm s
  | .disarm => Sys2Proof.Machine.execDisarm s
  | .estop => Sys2Proof.Machine.execEstop s
  | .estopClr => Sys2Proof.Machine.execEstopClr s
  -- encoder and synchronizer
  | .encode => Sys2Proof.Machine.execEncode s
  | .sync => Sys2Proof.Machine.execSync s
  -- telemetry
  | .decode rxLen rxData => Sys2Proof.Machine.execDecode rxLen rxData s
  | .tlmEn => Sys2Proof.Machine.execTlmEn s
  | .tlmDis => Sys2Proof.Machine.execTlmDis s
  | .get fid => Sys2Proof.Machine.execGet fid s

end Sys2Proof.Machine
end

