-- ==== Sys2Proof/Machine/Step.lean ====
section
/-! DEFINITION. One step: one input of the environment (spec R24, R28, R81). -/

namespace Sys2Proof.Machine

/-- One step. A command the decoder rejects raises `IllegalCommand` and changes nothing (R70). -/
def step (s : State) : Host.Outcome State Fault Refusal :=
  match takeInput s with
  | .idle => .next (idleStep s)
  | .reset mode tlmEn rest => .next (applyReset mode tlmEn rest)
  | .command c rest =>
    match decode c with
    | .ok i => exec i (s.accepted rest)
    | .error _ => .next (raiseException .illegalCommand (s.accepted rest))

/-- The state in which the word of the opcode table is the next command on the port. The block fetches nothing: an
agent presents the command (log entry 6). -/
def State.withFetchWord (s : State) (nbits w : Nat) : State := s.present (tableWordCommand nbits w)

end Sys2Proof.Machine
end

