-- ==== Sys2Proof/Machine/Registers.lean ====
section
/-! DEFINITION. The registers of the block one by one (spec R5 to R10), their widths, and the access table of R15. No
two registers alias (R14), and there is no other (R12, R13). -/

namespace Sys2Proof.Machine

/-- A register of the block. The telemetry registers are named by their field number (R8, R33). -/
inductive Reg where
  | csArmed
  | csEstop
  | csCh (sel : Channel)
  | lsCh (sel : Channel)
  | sendArm
  | sendDisarm
  | sendEstop
  | ts (fid : TlmField)
  | txbuf (i : Fin 9)
  | mode
  | tlmEn
  deriving DecidableEq, Repr

/-- The channels in wire order (R31). -/
def Channel.all : List Channel := [.throttle, .pitch, .roll, .yaw]

/-- The axes (R32). -/
def Axis.all : List Axis := [.accX, .accY, .accZ]

/-- The telemetry field of an axis (R33). -/
def axisField : Axis → TlmField
  | .accX => .accX
  | .accY => .accY
  | .accZ => .accZ

/-- The telemetry fields `DECODE` writes: all but the acceleration (R8). -/
def packetFields : List TlmField :=
  [.pitch, .armed, .throttle, .roll, .yaw, .estop, .crashed, .charging, .charged, .lowBattery]

/-- The nine bytes of `TXBUF` (R9). -/
def txRegs : List Reg := (List.finRange 9).map .txbuf

/-- Every register once. -/
def Reg.all : List Reg :=
  [.csArmed, .csEstop] ++ Channel.all.map .csCh ++ Channel.all.map .lsCh ++
  [.sendArm, .sendDisarm, .sendEstop] ++ TlmField.all.map .ts ++ txRegs ++ [.mode, .tlmEn]

/-- "Fields 1 and 8 to 12 are booleans, the others ChannelValues" (R33). -/
def TlmField.isBool : TlmField → Bool
  | .armed | .estop | .crashed | .charging | .charged | .lowBattery => true
  | .pitch | .throttle | .roll | .yaw | .accX | .accY | .accZ => false

/-- The width of a register in bits (R5 to R10). -/
def Reg.width : Reg → Nat
  | .csArmed => 1
  | .csEstop => 1
  | .csCh _ => 32
  | .lsCh _ => 32
  | .sendArm => 1
  | .sendDisarm => 1
  | .sendEstop => 1
  | .ts fid => if TlmField.isBool fid then 1 else 32
  | .txbuf _ => 8
  | .mode => 1
  | .tlmEn => 1

/-- The `MODE` bit of a transport strategy (R10). -/
def TxMode.bit : TxMode → Bool
  | .packet => false
  | .delta => true

/-- The content of a register, as the unsigned number its bits are. -/
def State.readReg (s : State) (r : Reg) : Nat :=
  match r with
  | .csArmed => s.cs.armed.toNat
  | .csEstop => s.cs.estop.toNat
  | .csCh sel => (s.cs.ch.get sel).toNat
  | .lsCh sel => (s.ls.get sel).toNat
  | .sendArm => s.send.arm.toNat
  | .sendDisarm => s.send.disarm.toNat
  | .sendEstop => s.send.estop.toNat
  | .ts fid => (s.ts.field fid).toNat
  | .txbuf i => (Memory.byteAt s.txbuf i).toNat
  | .mode => (TxMode.bit s.mode).toNat
  | .tlmEn => s.tlmEn.toNat

/-- The W and RW cells of the access table (R15). -/
def writes (i : Instr) : List Reg :=
  match i with
  | .f32ToF16 _ => []
  | .f16ToF32 _ => []
  | .setch sel _ => [.csCh sel]
  | .arm => [.csArmed, .sendArm]
  | .disarm => [.csArmed, .sendDisarm]
  | .estop => [.csEstop, .sendEstop]
  | .estopClr => [.csEstop]
  | .encode => txRegs
  | .sync => Channel.all.map .lsCh ++ [.sendArm, .sendDisarm, .sendEstop]
  | .decode _ _ => [.csArmed, .csEstop] ++ packetFields.map .ts
  | .tlmEn => [.tlmEn]
  | .tlmDis => [.tlmEn]
  | .setacc sel _ => [.ts (axisField sel)]
  | .get _ => []

/-- The R and RW cells of the access table (R15). -/
def reads (i : Instr) : List Reg :=
  match i with
  | .f32ToF16 _ => []
  | .f16ToF32 _ => []
  | .setch _ _ => []
  | .arm => []
  | .disarm => []
  | .estop => []
  | .estopClr => []
  | .encode => [.csArmed, .csEstop] ++ Channel.all.map .csCh ++ [.mode]
  | .sync => Channel.all.map .csCh ++ Channel.all.map .lsCh ++ [.sendArm, .sendDisarm, .sendEstop, .mode]
  | .decode _ _ => [.csArmed, .csEstop, .tlmEn]
  | .tlmEn => []
  | .tlmDis => []
  | .setacc _ _ => []
  | .get fid => [.ts fid]

end Sys2Proof.Machine
end

