-- ==== Sys2Proof/Safety.lean ====
section
/-! DEFINITION. The terms claims are stated in: frames, the invariant of the block, agent discipline (spec R73, R85),
and runs of several instructions. -/

namespace Sys2Proof.Machine

/-- Every register keeps its content: the frame of an operation that changes no state (R75). -/
def SameRegs (s t : State) : Prop := ∀ r, t.readReg r = s.readReg r

/-- A frame: every register outside the list keeps its content, every byte of `TX` whose register is not in the list
reads as before, at every address, and no input is consumed. -/
def UnchangedExcept (changed : List Reg) (s t : State) : Prop :=
  (∀ r, r ∉ changed → t.readReg r = s.readReg r) ∧
  (∀ a, (∀ i : Fin 9, a = i.val → .txbuf i ∉ changed) → Memory.readByte t.txbuf a = Memory.readByte s.txbuf a) ∧
  t.inputs = s.inputs

/-- An input the environment can make: the packet operand of a command is well-formed (R17, R28). -/
def Input.WellFormed : Input → Prop
  | .command _ c => c.WellFormed
  | .reset _ _ => True

/-- Every pending input can be made. -/
def InputsWellFormed (s : State) : Prop := ∀ x ∈ s.inputs, x.WellFormed

/-- Agent discipline (R73): the RX agent issues `DECODE` and nothing else, the HOST agent never issues it. The block
does not check it (R85). That a disciplined HOST agent may present an illegal command, and a disciplined RX agent may
not, is a DESIGN CHOICE of the model (log entry 11): the HOST agent's list in R73 names legal operations only. -/
def Input.Disciplined : Input → Prop
  | .command a c => a = issuer c
  | .reset _ _ => True

/-- The invariant of the block. -/
structure BlockInv (s : State) : Prop where
  /-- `TXBUF` has its canonical form. -/
  memory : Memory.wf s.txbuf = true
  /-- Every pending packet operand is `rx_len` bytes (R28). -/
  inputs : InputsWellFormed s
  /-- The reserved bits 2 to 7 of byte 0 of a transmitted packet are zero (R34, R39). -/
  reserved : Memory.byteAt s.txbuf 0 &&& 0xFC#8 = 0#8
  /-- Every telemetry channel register holds a value `F16_TO_F32` produces (R44, R56). -/
  telemetry : ∀ sel : Channel, ∃ h : Half, s.ts.ch.get sel = f16ToF32 h
  /-- In packet mode the snapshot is never written (R67, R71). -/
  packetMode : s.mode = .packet → s.ls = Channels.zero
  /-- In delta mode the transmit buffer is never written (R67, R71). -/
  deltaMode : s.mode = .delta → s.txbuf = []
  /-- A `tx_data` on the response port is the content of `TXBUF` (R36, R55). -/
  txData : ∀ p, s.response = some (.packet p) → p = Memory.bytes s.txbuf
  /-- An `act_val[i]` on the response port is present exactly when `act_mask[3+i] = 1` (R40). -/
  actVal : ∀ a, s.response = some (.actions a) →
    ∀ sel : Channel, (a.val.get sel).isSome = a.mask.getLsbD (3 + sel.code.toNat)

/-- Several instructions executed one after the other (R24). -/
def runInstrs : List Instr → State → Host.Outcome State Fault Refusal
  | [], s => .next s
  | i :: rest, s =>
    match exec i s with
    | .next t => runInstrs rest t
    | .fault f => .fault f
    | .refused r => .refused r

/-- The magnitude bits `h[14:0]` of a HalfFloat as a number, the index of its value on the codec grid (R38, R45). -/
def gridIndex (h : Half) : Nat := h.toNat % 2 ^ 15

/-- The distance of two magnitudes (R45). -/
def distance (a b : Nat) : Nat := (a - b) + (b - a)

/-- 131040.0, the saturation threshold of R45, in units of 2^-149. -/
def saturationThreshold : Nat := 131040 * 2 ^ 149

end Sys2Proof.Machine
end

