-- ==== Sys2Proof/Certificates/Slice0/Obligations.lean ====
section
/-! DEFINITION. The statements for the provers. Each docstring names the rule of the spec, or, where the sentence is the
spec's own decision (D<n>) or inference, says so. Witnesses for the hypotheses stand in Sys2Proof/Tests/Slice0.lean. -/

open Sys2Proof Sys2Proof.Machine

/-! ### Encoding -/

/-- No bit of a command is dropped: every instruction, with every operand its encoding admits, is read back from its
command, and the command of a well-formed instruction can be presented. -/
def Obligations.DecodeOfEncodeIsTheInstruction : Prop :=
  ∀ i : Instr, decode (encode i) = .ok i ∧ (i.WellFormed → (encode i).WellFormed)

/-- One word of each group of the opcode map, written out from R30 to R33. -/
def Obligations.WordsOfTheOpcodeMapDecode : Prop :=
  decodeTableWord 8 0b00000001 = some (.f32ToF16 0) ∧
  decodeTableWord 8 0b00000010 = some (.f16ToF32 0) ∧
  decodeTableWord 8 0b00010010 = some (.setch .roll 0) ∧
  decodeTableWord 8 0b00010101 = some (.setacc .accY 0) ∧
  decodeTableWord 8 0b00010111 = none ∧
  decodeTableWord 8 0b00100001 = some .disarm ∧
  decodeTableWord 8 0b00110000 = some .encode ∧
  decodeTableWord 8 0b00110001 = some .sync ∧
  decodeTableWord 8 0b01000000 = some (.decode 0 []) ∧
  decodeTableWord 8 0b01000010 = some .tlmDis ∧
  decodeTableWord 8 0b01011100 = some (.get .lowBattery) ∧
  decodeTableWord 8 0b01011101 = none

/-- No `cmd` selects two rows of R30, and exactly 31 of the 256 values are legal. -/
def Obligations.OpcodeMapIsUnambiguous : Prop :=
  (∀ cmd : Byte, (opcodeTable.filter (rowMatches cmd)).length ≤ 1) ∧
  ((List.range 256).filter fun w => (decodeTableWord 8 w).isSome).length = 31

/-- The list of illegal values of R34 (D30), whatever the operands: a command decodes exactly when its `cmd` is not in
the list. -/
def Obligations.IllegalCodesAreThoseListed : Prop :=
  ∀ c : Command, (∃ e, decode c = .error e) ↔
    (c.cmd.toNat = 0x00 ∨ (0x03 ≤ c.cmd.toNat ∧ c.cmd.toNat ≤ 0x0F) ∨ (0x17 ≤ c.cmd.toNat ∧ c.cmd.toNat ≤ 0x1F) ∨
     (0x24 ≤ c.cmd.toNat ∧ c.cmd.toNat ≤ 0x2F) ∨ (0x32 ≤ c.cmd.toNat ∧ c.cmd.toNat ≤ 0x3F) ∨
     (0x43 ≤ c.cmd.toNat ∧ c.cmd.toNat ≤ 0x4F) ∨ 0x5D ≤ c.cmd.toNat)

/-- A `cmd` value has one meaning: the instruction a command decodes to is encoded with that command's `cmd`, and a
command the port can present gives a well-formed instruction. -/
def Obligations.DecodedInstructionKeepsItsCode : Prop :=
  ∀ (c : Command) (i : Instr), decode c = .ok i → (encode i).cmd = c.cmd ∧ (c.WellFormed → i.WellFormed)

/-- Operands a format does not use are ignored, whatever they hold (R28, R35; D35): two commands with one `cmd` that
agree on the operands that format names decode alike. -/
def Obligations.UnusedOperandsAreIgnored : Prop :=
  ∀ c d : Command, c.cmd = d.cmd →
    (selectOp c.cmd ∈ [some .f32ToF16, some .setch, some .setacc] → c.din = d.din) →
    (selectOp c.cmd = some .f16ToF32 → c.din.extractLsb' 0 16 = d.din.extractLsb' 0 16) →
    (selectOp c.cmd = some .decode → c.rxLen = d.rxLen ∧ c.rxData = d.rxData) →
    decode c = decode d

/-! ### The step -/

/-- A step executes the command at the head of the input list: when it decodes to `i`, the step is `exec i` on the state
from whose inputs the command has been taken. -/
def Obligations.StepRunsTheDecodedInstruction : Prop :=
  ∀ (s : State) (a : Agent) (c : Command) (rest : List Input) (i : Instr),
    s.inputs = .command a c :: rest → decode c = .ok i → step s = exec i { s with inputs := rest }

/-- An illegal command is answered with status 2, changes no register, and leaves the block ready for the next input
(R70, R75; the spec's decisions D30, D20). -/
def Obligations.IllegalCommandChangesNothing : Prop :=
  ∀ (s : State) (a : Agent) (c : Command) (rest : List Input) (e : DecodeError),
    s.inputs = .command a c :: rest → decode c = .error e →
    ∃ t, step s = .next t ∧ t.response = some (.error .illegalCommand) ∧
      Response.status (.error .illegalCommand) = 2 ∧ SameRegs s t ∧
      (∀ n, Memory.readByte t.txbuf n = Memory.readByte s.txbuf n) ∧ t.inputs = rest

/-- Reset applied (R81, R16; the spec's decision D19): whatever the state was, every register but the two parameters is
zero afterwards, `MODE` and `TLM_EN` hold the parameters sampled, no response is given, and the inputs behind it remain.
That a later reset may sample other parameters than the first is the model's choice (log entry 5). -/
def Obligations.ResetInputZeroesEveryRegister : Prop :=
  ∀ (s : State) (mode : TxMode) (tlmEn : Bool) (rest : List Input),
    s.inputs = .reset mode tlmEn :: rest →
    ∃ t, step s = .next t ∧ (∀ r, r ≠ .mode → r ≠ .tlmEn → t.readReg r = 0) ∧
      t.mode = mode ∧ t.tlmEn = tlmEn ∧ t.response = none ∧ t.inputs = rest

/-- With no input pending a step changes no register and gives no response (the model's choice, log entry 3). -/
def Obligations.IdleStepChangesNothing : Prop :=
  ∀ s : State, s.inputs = [] → ∃ t, step s = .next t ∧ SameRegs s t ∧ t.response = none ∧ t.inputs = []

/-- R85: the block executes any legal command from whichever agent presents it; which agent it was makes no difference
to the step, and a command that decodes is executed whoever issued it. -/
def Obligations.AgentOfACommandMakesNoDifference : Prop :=
  ∀ (s : State) (a b : Agent) (c : Command) (rest : List Input),
    step { s with inputs := .command a c :: rest } = step { s with inputs := .command b c :: rest } ∧
    ∀ i, decode c = .ok i → step { s with inputs := .command a c :: rest } = exec i { s with inputs := rest }

/-- R16 (the spec's decision D19): the first reset state, register by register; `MODE` and `TLM_EN` are the two open
parameters. -/
def Obligations.FirstResetStateIsZero : Prop :=
  (∀ r, r ≠ .mode → r ≠ .tlmEn → State.reset.readReg r = 0) ∧
  State.reset.mode = Config.mode ∧ State.reset.tlmEn = Config.tlmEnReset ∧
  (∀ a, Memory.readByte State.reset.txbuf a = if a < 9 then some 0 else none)

/-- R82 (an inference of the spec): what the first operation after reset shows. -/
def Obligations.FirstOperationsAfterResetShowZeros : Prop :=
  ∀ tlmEn : Bool,
    (∃ t, exec .encode (State.resetWith .packet tlmEn) = .next t ∧
      t.response = some (.packet [0, 0, 0, 0, 0, 0, 0, 0, 0])) ∧
    (∃ t a, exec .sync (State.resetWith .delta tlmEn) = .next t ∧ t.response = some (.actions a) ∧ a.mask = 0) ∧
    (∀ mode fid, ∃ t, exec (.get fid) (State.resetWith mode tlmEn) = .next t ∧ t.response = some (.data 0))

/-! ### Half-Float Codec -/

/-- The magnitude of `f32_to_f16` by the integer arithmetic of R43, from the biased word's exponent and mantissa. -/
def halfMagnitudeOfRule (e m : Nat) : Nat :=
  if e > 143 then 0x7FFF
  else if e > 112 then (e - 112) * 2 ^ 10 + m / 2 ^ 13
  else if e > 101 then ((0x007FF000 + m) / 2 ^ (125 - e) + 1) / 2
  else 0

/-- `F32_TO_F16` completes in every state and answers what the integer arithmetic of R43, R47 gives (decisions D5, D6,
D8, D9, D36), changing nothing. -/
def Obligations.NarrowingFollowsTheIntegerRule : Prop :=
  ∀ (x : Word) (s : State),
    let b := (x.toNat + 0x00001000) % 2 ^ 32
    ∃ t, exec (.f32ToF16 x) s = .next t ∧
      t.response = some (.data (BitVec.ofNat 32
        (b / 2 ^ 31 * 2 ^ 15 + halfMagnitudeOfRule (b / 2 ^ 23 % 2 ^ 8) (b % 2 ^ 23)))) ∧
      UnchangedExcept [] s t

/-- `F16_TO_F32` completes in every state and answers what the integer arithmetic of R44, R47 gives (decision D7 for the
subnormals, whose leading one is at `Nat.log2 m`), changing nothing. -/
def Obligations.WideningFollowsTheIntegerRule : Prop :=
  ∀ (h : Half) (s : State),
    let sign := h.toNat / 2 ^ 15
    let e := h.toNat / 2 ^ 10 % 2 ^ 5
    let m := h.toNat % 2 ^ 10
    let mag :=
      if e ≠ 0 then (e + 112) * 2 ^ 23 + m * 2 ^ 13
      else if m = 0 then 0
      else (103 + Nat.log2 m) * 2 ^ 23 + m * 2 ^ (23 - Nat.log2 m) % 2 ^ 23
    ∃ t, exec (.f16ToF32 h) s = .next t ∧
      t.response = some (.data (BitVec.ofNat 32 (sign * 2 ^ 31 + mag))) ∧ UnchangedExcept [] s t

/-- R49: neither codec operation reads or writes any state or raises any exception; the answer is a function of the
operand alone, in any two states. -/
def Obligations.CodecOperationsArePure : Prop :=
  (∀ (x : Word) (s u : State), ∃ d t v, exec (.f32ToF16 x) s = .next t ∧ exec (.f32ToF16 x) u = .next v ∧
    t.response = some (.data d) ∧ v.response = some (.data d) ∧ SameRegs s t ∧ SameRegs u v) ∧
  (∀ (h : Half) (s u : State), ∃ d t v, exec (.f16ToF32 h) s = .next t ∧ exec (.f16ToF32 h) u = .next v ∧
    t.response = some (.data d) ∧ v.response = some (.data d) ∧ SameRegs s t ∧ SameRegs u v)

/-- R46 (a) (an inference of the spec): narrowing undoes widening for all 65536 codes. -/
def Obligations.NarrowingUndoesWidening : Prop :=
  ∀ h : Half, f32ToF16 (f16ToF32 h) = h

/-- R45 (an inference of the spec): for every finite operand the sign is kept; from 131040.0 on the magnitude saturates;
below it the code is the index of a nearest grid value, and of two nearest ones the larger. -/
def Obligations.NarrowingRoundsToNearestTiesAway : Prop :=
  ∀ x : Word, isFinite32 x = true →
    sign16 (f32ToF16 x) = sign32 x ∧
    (saturationThreshold ≤ magnitude32 x → gridIndex (f32ToF16 x) = 0x7FFF) ∧
    (magnitude32 x < saturationThreshold → ∀ k < 2 ^ 15,
      distance (magnitude32 x) (grid (gridIndex (f32ToF16 x))) ≤ distance (magnitude32 x) (grid k) ∧
      (distance (magnitude32 x) (grid k) = distance (magnitude32 x) (grid (gridIndex (f32ToF16 x))) →
        k ≤ gridIndex (f32ToF16 x)))

/-- R46 (b) (an inference of the spec): a finite pattern comes back exactly when its magnitude is on the codec grid. -/
def Obligations.RoundTripIsExactOnTheGridOnly : Prop :=
  ∀ x : Word, isFinite32 x = true →
    (f16ToF32 (f32ToF16 x) = x ↔ ∃ k < 2 ^ 15, grid k = magnitude32 x)

/-- R46 (c), R44: widening keeps sign and magnitude, is injective, and never gives an infinity, a NaN or a float32
subnormal (an inference of the spec from R44, R37, R38). -/
def Obligations.WideningIsExactAndFinite : Prop :=
  (∀ h : Half, sign32 (f16ToF32 h) = sign16 h ∧ magnitude32 (f16ToF32 h) = magnitude16 h ∧
    (isZero32 (f16ToF32 h) = true ∨ (103 ≤ (exp32 (f16ToF32 h)).toNat ∧ (exp32 (f16ToF32 h)).toNat ≤ 143))) ∧
  (∀ g h : Half, f16ToF32 g = f16ToF32 h → g = h)

/-- Both directions keep order (R45, R38; checked by the spec, an inference): narrowing is non-decreasing in `x[30:0]`
over finite patterns, widening is strictly increasing over the codes 0 .. 0x7FFF, and so is the grid. -/
def Obligations.CodecKeepsOrder : Prop :=
  (∀ x y : Word, isFinite32 x = true → isFinite32 y = true → x.toNat % 2 ^ 31 ≤ y.toNat % 2 ^ 31 →
    gridIndex (f32ToF16 x) ≤ gridIndex (f32ToF16 y)) ∧
  (∀ j k, j < k → k < 2 ^ 15 →
    (f16ToF32 (BitVec.ofNat 16 j)).toNat < (f16ToF32 (BitVec.ofNat 16 k)).toNat ∧ grid j < grid k)

/-- R48 (an inference of the spec from R43; the NaN cases rest on its decisions D5, D36, log entry 9): infinities and
NaNs with mantissa below 0x7FF000 saturate with their sign, the other NaNs carry through the exponent into the sign, and
finite values below 2^-25 (2^124 units of 2^-149) give a signed zero. -/
def Obligations.SpecialOperandsOfNarrowing : Prop :=
  ∀ x : Word,
    (exp32 x = 255 → (man32 x).toNat < 0x7FF000 → f32ToF16 x = if sign32 x then 0xFFFF else 0x7FFF) ∧
    (exp32 x = 255 → 0x7FF000 ≤ (man32 x).toNat → f32ToF16 x = if sign32 x then 0x0000 else 0x8000) ∧
    (isFinite32 x = true → magnitude32 x < 2 ^ 124 → f32ToF16 x = if sign32 x then 0x8000 else 0x0000)

/-! ### Control state -/

/-- `SETCH` (R50; the spec's decision D12): one channel register takes the operand, every pattern is stored as given,
and nothing else changes, the one-shot flags and the snapshot included. -/
def Obligations.SetchWritesOneChannel : Prop :=
  ∀ (sel : Channel) (v : Word) (s : State),
    ∃ t, exec (.setch sel v) s = .next t ∧ t.response = some .ok ∧ t.cs.ch.get sel = v ∧
      UnchangedExcept [.csCh sel] s t

/-- `ARM` (R51; the spec's decisions D11, D32): no interlock, no pending flag cancelled. -/
def Obligations.ArmSetsLatchAndRequest : Prop :=
  ∀ s : State, ∃ t, exec .arm s = .next t ∧ t.response = some .ok ∧ t.cs.armed = true ∧ t.send.arm = true ∧
    UnchangedExcept [.csArmed, .sendArm] s t

/-- `DISARM` (R52; the spec's decisions D11, D32). -/
def Obligations.DisarmClearsLatchAndSetsRequest : Prop :=
  ∀ s : State, ∃ t, exec .disarm s = .next t ∧ t.response = some .ok ∧ t.cs.armed = false ∧ t.send.disarm = true ∧
    UnchangedExcept [.csArmed, .sendDisarm] s t

/-- `ESTOP` (R53; the spec's decision D11). -/
def Obligations.EstopSetsLatchAndRequest : Prop :=
  ∀ s : State, ∃ t, exec .estop s = .next t ∧ t.response = some .ok ∧ t.cs.estop = true ∧ t.send.estop = true ∧
    UnchangedExcept [.csEstop, .sendEstop] s t

/-- `ESTOP_CLR` (R54; the spec's decision D11). -/
def Obligations.EstopClrClearsOnlyTheLatch : Prop :=
  ∀ s : State, ∃ t, exec .estopClr s = .next t ∧ t.response = some .ok ∧ t.cs.estop = false ∧
    UnchangedExcept [.csEstop] s t

/-! ### Control Packet Encoder -/

/-- The high byte of a HalfFloat, sent first (R18). -/
def highByte (h : Half) : Byte := BitVec.ofNat 8 (h.toNat / 256)

/-- The low byte of a HalfFloat (R18). -/
def lowByte (h : Half) : Byte := BitVec.ofNat 8 (h.toNat % 256)

/-- The nine bytes of a control packet by R55, R39: flags with bit 0 armed and bit 1 estop (D4), then four big-endian
HalfFloats. -/
def controlPacketOfRule (cs : ControlState) : List Byte :=
  [BitVec.ofNat 8 (2 * cs.estop.toNat + cs.armed.toNat),
   highByte (f32ToF16 cs.ch.throttle), lowByte (f32ToF16 cs.ch.throttle),
   highByte (f32ToF16 cs.ch.pitch), lowByte (f32ToF16 cs.ch.pitch),
   highByte (f32ToF16 cs.ch.roll), lowByte (f32ToF16 cs.ch.roll),
   highByte (f32ToF16 cs.ch.yaw), lowByte (f32ToF16 cs.ch.yaw)]

/-- `ENCODE` in packet mode (R55; bit numbering D4, mode D17): it completes, `TXBUF` and `tx_data` are the nine bytes of
the control packet, nothing but `TXBUF` changes, and no address outside `TX` appears. The stored bytes are those at the
addresses `memWrite8` and `memWrite16` are given, 0, 1, 3, 5 and 7, which cover `TX`. -/
def Obligations.EncodePacksTheControlState : Prop :=
  ∀ s : State, s.mode = .packet → Memory.wf s.txbuf = true →
    ∃ t, exec .encode s = .next t ∧ t.response = some (.packet (controlPacketOfRule s.cs)) ∧
      (∀ a, Memory.readByte t.txbuf a = (controlPacketOfRule s.cs)[a]?) ∧
      UnchangedExcept txRegs s t

/-- `ModeViolation` (R71; the spec's decision D17): `ENCODE` in delta mode and `SYNC` in packet mode are refused with
status 3 and change nothing. -/
def Obligations.OtherModesSendIsRefused : Prop :=
  ∀ s : State,
    (s.mode = .delta → ∃ t, exec .encode s = .next t ∧ t.response = some (.error .modeViolation) ∧
      UnchangedExcept [] s t) ∧
    (s.mode = .packet → ∃ t, exec .sync s = .next t ∧ t.response = some (.error .modeViolation) ∧
      UnchangedExcept [] s t) ∧
    Response.status (.error .modeViolation) = 3

/-! ### Telemetry Packet Decoder -/

/-- A HalfFloat from its two bytes, the first the more significant (R18). -/
def halfOfBytes (hi lo : Byte) : Half := BitVec.ofNat 16 (hi.toNat * 256 + lo.toNat)

/-- `DECODE` of nine bytes with telemetry enabled (R56; binding D10, bit numbering D4, reserved bits D22): it completes;
six booleans and four channels are overwritten, the estop latch takes the OR, the armed latch keeps its value, and
nothing else changes, in either mode. -/
def Obligations.DecodeUpdatesTelemetryAndLatches : Prop :=
  ∀ (s : State) (f b1 b2 b3 b4 b5 b6 b7 b8 : Byte), s.tlmEn = true →
    ∃ t, exec (.decode 9 [f, b1, b2, b3, b4, b5, b6, b7, b8]) s = .next t ∧ t.response = some .ok ∧
      t.ts.armed = f.getLsbD 0 ∧ t.ts.estop = f.getLsbD 1 ∧ t.ts.crashed = f.getLsbD 2 ∧
      t.ts.charging = f.getLsbD 3 ∧ t.ts.charged = f.getLsbD 4 ∧ t.ts.lowBattery = f.getLsbD 5 ∧
      t.ts.ch.throttle = f16ToF32 (halfOfBytes b1 b2) ∧ t.ts.ch.pitch = f16ToF32 (halfOfBytes b3 b4) ∧
      t.ts.ch.roll = f16ToF32 (halfOfBytes b5 b6) ∧ t.ts.ch.yaw = f16ToF32 (halfOfBytes b7 b8) ∧
      t.cs.estop = (s.cs.estop || f.getLsbD 1) ∧ t.cs.armed = s.cs.armed ∧
      UnchangedExcept ([.csArmed, .csEstop] ++ packetFields.map .ts) s t

/-- `DECODE` with telemetry disabled (R56; the order of the tests is the spec's decision D21): callable but inert, for
every length and content. -/
def Obligations.DecodeIsInertWhenDisabled : Prop :=
  ∀ (s : State) (n : BitVec 8) (rx : List Byte), s.tlmEn = false →
    ∃ t, exec (.decode n rx) s = .next t ∧ t.response = some .ok ∧ UnchangedExcept [] s t

/-- R69: with telemetry enabled a length other than 9 is answered with `MalformedPacket`, status 1, no register is
written and no byte of the operand is read (any other content gives the same step); nine bytes, or a disabled decoder,
never raise it; and no operand the port can present makes a read go out of bounds. -/
def Obligations.WrongLengthIsMalformedAndNothingIsRead : Prop :=
  (∀ (s : State) (n : BitVec 8) (rx rx' : List Byte), s.tlmEn = true → n ≠ 9 →
    exec (.decode n rx) s = exec (.decode n rx') s ∧
    ∃ t, exec (.decode n rx) s = .next t ∧ t.response = some (.error .malformedPacket) ∧ UnchangedExcept [] s t) ∧
  (∀ (s : State) (n : BitVec 8) (rx : List Byte), rx.length = n.toNat → (n = 9 ∨ s.tlmEn = false) →
    ∃ t, exec (.decode n rx) s = .next t ∧ t.response ≠ some (.error .malformedPacket)) ∧
  (∀ (s : State) (n : BitVec 8) (rx : List Byte) (k : Nat), rx.length = n.toNat →
    exec (.decode n rx) s ≠ .fault (.rxOutOfBounds k)) ∧
  Response.status (.error .malformedPacket) = 1

/-- R57: the estop latch function in its literal form equals OR for all four pairs, and what an admitted packet leaves
in the latch is that function of the old latch and bit 1 of byte 0; once set it stays set across a later packet without
the bit. (That the latch is `CS.estop` is the spec's decision D10, the weight of bit 1 D4.) -/
def Obligations.EstopLatchIsAnOr : Prop :=
  (∀ old inp : Bool, estopLatchNext old inp = ((old && !inp) || (!old && inp) || (old && inp)) ∧
    estopLatchNext old inp = (old || inp)) ∧
  (∀ (s t : State) (f : Byte) (rest : List Byte), s.tlmEn = true → rest.length = 8 →
    exec (.decode 9 (f :: rest)) s = .next t → t.cs.estop = estopLatchNext s.cs.estop (f.getLsbD 1)) ∧
  (∀ (s : State) (f g : Byte) (rest rest' : List Byte), s.tlmEn = true → rest.length = 8 → rest'.length = 8 →
    f.getLsbD 1 = true → g.getLsbD 1 = false →
    ∃ t, runInstrs [.decode 9 (f :: rest), .decode 9 (g :: rest')] s = .next t ∧ t.cs.estop = true)

/-- R58: the armed latch function equals the old value for all four pairs; no `DECODE`, whatever it holds, changes
`CS.armed`, while the raw telemetry bit tracks bit 0 of byte 0 of an admitted packet; only `ARM` and `DISARM` change
`CS.armed`. (That the latch is `CS.armed` is the spec's decision D10, that bit 0 is the least significant D4.) -/
def Obligations.ArmedLatchIgnoresTheWire : Prop :=
  (∀ old inp : Bool, armedLatchNext old inp = ((old && !inp) || (old && inp)) ∧ armedLatchNext old inp = old) ∧
  (∀ (s t : State) (n : BitVec 8) (rx : List Byte), exec (.decode n rx) s = .next t → t.cs.armed = s.cs.armed) ∧
  (∀ (s : State) (f : Byte) (rest : List Byte), s.tlmEn = true → rest.length = 8 →
    ∃ t, exec (.decode 9 (f :: rest)) s = .next t ∧ t.cs.armed = s.cs.armed ∧ t.ts.armed = f.getLsbD 0) ∧
  (∀ (i : Instr) (s t : State), exec i s = .next t → t.cs.armed ≠ s.cs.armed → i = .arm ∨ i = .disarm)

/-- R59: `TS.armed` and `TS.estop` take the raw bits on every admitted `DECODE`, whatever the latches hold; after an
estop packet and a clear packet the two notions of estop differ; `GET` returns the raw bits, while `CS.armed` keeps its
value; and between packets the two registers keep theirs. (Bit numbering D4 and binding D10 are the spec's decisions.) -/
def Obligations.RawBitsOverwriteWhateverTheLatchesHold : Prop :=
  (∀ (s : State) (f : Byte) (rest : List Byte), s.tlmEn = true → rest.length = 8 →
    ∃ t u v, exec (.decode 9 (f :: rest)) s = .next t ∧ t.ts.armed = f.getLsbD 0 ∧ t.ts.estop = f.getLsbD 1 ∧
      t.cs.armed = s.cs.armed ∧
      exec (.get .armed) t = .next u ∧ u.response = some (.data (if f.getLsbD 0 then 1 else 0)) ∧
      exec (.get .estop) t = .next v ∧ v.response = some (.data (if f.getLsbD 1 then 1 else 0))) ∧
  (∀ (s : State) (f g : Byte) (rest rest' : List Byte), s.tlmEn = true → rest.length = 8 → rest'.length = 8 →
    f.getLsbD 1 = true → g.getLsbD 1 = false →
    ∃ t, runInstrs [.decode 9 (f :: rest), .decode 9 (g :: rest')] s = .next t ∧
      t.ts.estop = false ∧ t.cs.estop = true) ∧
  (∀ (i : Instr) (s t : State), (∀ n rx, i ≠ .decode n rx) → exec i s = .next t →
    t.ts.armed = s.ts.armed ∧ t.ts.estop = s.ts.estop)

/-- `TLM_EN` (R60; the spec's decision D18): the enable bit is set and nothing else changes. -/
def Obligations.TlmEnSetsOnlyTheEnable : Prop :=
  ∀ s : State, ∃ t, exec .tlmEn s = .next t ∧ t.response = some .ok ∧ t.tlmEn = true ∧ UnchangedExcept [.tlmEn] s t

/-- R61: `TLM_DIS` clears the enable bit and nothing else; `TS` keeps its content; then every `DECODE` is a no-op with
status `OK`, so a remote estop is not latched, while `GET` and `SETACC` work as usual. -/
def Obligations.TlmDisDetachesTheDecoder : Prop :=
  decodeTableWord 8 0x42 = some .tlmDis ∧
  ∀ s : State, ∃ t, exec .tlmDis s = .next t ∧ t.response = some .ok ∧ t.tlmEn = false ∧
    UnchangedExcept [.tlmEn] s t ∧
    (∀ n rx, ∃ u, exec (.decode n rx) t = .next u ∧ u.response = some .ok ∧ UnchangedExcept [] t u) ∧
    (∀ fid, ∃ u, exec (.get fid) t = .next u ∧ u.response = some (.data (s.ts.field fid))) ∧
    (∀ sel v, ∃ u, exec (.setacc sel v) t = .next u ∧ u.response = some .ok ∧ u.ts.acc.get sel = v)

/-- `SETACC` (R62; the spec's decision D13): one acceleration register takes the operand, whatever `TLM_EN` and `MODE`
hold, and nothing else changes. -/
def Obligations.SetaccWritesOneAxis : Prop :=
  ∀ (sel : Axis) (v : Word) (s : State),
    ∃ t, exec (.setacc sel v) s = .next t ∧ t.response = some .ok ∧ t.ts.acc.get sel = v ∧
      UnchangedExcept [.ts (axisField sel)] s t

/-- The value `GET` returns for each field by R63: the pattern of a ChannelValue, 0 or 1 for a boolean (the form is the
spec's decision D14). -/
def fieldOfRule (ts : TelemetryState) : TlmField → Word
  | .pitch => ts.ch.pitch
  | .armed => if ts.armed then 1 else 0
  | .throttle => ts.ch.throttle
  | .roll => ts.ch.roll
  | .yaw => ts.ch.yaw
  | .accX => ts.acc.accX
  | .accY => ts.acc.accY
  | .accZ => ts.acc.accZ
  | .estop => if ts.estop then 1 else 0
  | .crashed => if ts.crashed then 1 else 0
  | .charging => if ts.charging then 1 else 0
  | .charged => if ts.charged then 1 else 0
  | .lowBattery => if ts.lowBattery then 1 else 0

/-- `GET` (R63; form D14): it completes for every field in every state, returns that field, and changes nothing. -/
def Obligations.GetReturnsTheField : Prop :=
  ∀ (fid : TlmField) (s : State), ∃ t, exec (.get fid) s = .next t ∧
    t.response = some (.data (fieldOfRule s.ts fid)) ∧ UnchangedExcept [] s t

/-! ### State Synchronizer -/

/-- R64: in delta mode `SYNC` completes; the three low bits of `act_mask` are the one-shot flags, the others say which
channels differ from the snapshot; `act_val` is the channel value where its bit is 1; the flags are cleared, the snapshot
takes every channel, and nothing else changes. In packet mode it raises `ModeViolation` and changes nothing. That
`act_val` is absent where its bit is 0 is the model's choice (log entry 4): R64 only calls the value not meaningful. -/
def Obligations.SyncReportsAndTakesTheSnapshot : Prop :=
  decodeTableWord 8 0x31 = some .sync ∧
  ∀ s : State,
    (s.mode = .delta → ∃ t a, exec .sync s = .next t ∧ t.response = some (.actions a) ∧
      a.mask.getLsbD 0 = s.send.arm ∧ a.mask.getLsbD 1 = s.send.disarm ∧ a.mask.getLsbD 2 = s.send.estop ∧
      (∀ sel : Channel, a.mask.getLsbD (3 + sel.code.toNat) = fneq (s.cs.ch.get sel) (s.ls.get sel) ∧
        a.val.get sel = if fneq (s.cs.ch.get sel) (s.ls.get sel) then some (s.cs.ch.get sel) else none) ∧
      t.send.arm = false ∧ t.send.disarm = false ∧ t.send.estop = false ∧ t.ls = s.cs.ch ∧
      UnchangedExcept (Channel.all.map .lsCh ++ [.sendArm, .sendDisarm, .sendEstop]) s t) ∧
    (s.mode = .packet → ∃ t, exec .sync s = .next t ∧ t.response = some (.error .modeViolation) ∧
      UnchangedExcept [] s t)

/-- The number a finite float32 pattern denotes, in units of 2^-149 (R37). -/
def signedMagnitude (x : Word) : Int := if sign32 x then -(magnitude32 x : Int) else magnitude32 x

/-- R65 (general knowledge of the spec, G4; its decision D15): on finite patterns `fneq` is inequality of the numbers
they denote, a NaN differs from everything, itself included, and an infinity equals only itself. -/
def Obligations.ComparisonIsFloatNotEqual : Prop :=
  (∀ a b : Word, isFinite32 a = true → isFinite32 b = true →
    (fneq a b = false ↔ signedMagnitude a = signedMagnitude b)) ∧
  (∀ a b : Word, isNan32 a = true → fneq a b = true ∧ fneq b a = true) ∧
  (∀ a b : Word, isFinite32 a = false → isNan32 a = false → isNan32 b = false →
    (fneq a b = false ↔ a = b) ∧ (fneq b a = false ↔ a = b))

/-- E4, R66, R88 (an inference of the spec): a second `SYNC` with nothing in between sends no one-shot flag and no
channel but those that hold a NaN, and leaves the registers as they are. -/
def Obligations.SecondSyncSendsOnlyNans : Prop :=
  ∀ s : State, s.mode = .delta → ∃ t u a, exec .sync s = .next t ∧ exec .sync t = .next u ∧
    u.response = some (.actions a) ∧ a.mask.getLsbD 0 = false ∧ a.mask.getLsbD 1 = false ∧ a.mask.getLsbD 2 = false ∧
    (∀ sel : Channel, a.mask.getLsbD (3 + sel.code.toNat) = isNan32 (s.cs.ch.get sel)) ∧ SameRegs t u

/-- R66 (an inference of the spec): over any run of well-formed instructions without a `SYNC`, followed by one, an action
is reported exactly when its flag was pending or its operation was executed, however often, and then the flag is down. -/
def Obligations.OneShotRequestsAreReportedOnce : Prop :=
  ∀ (is : List Instr) (s : State), s.mode = .delta → (∀ i ∈ is, i.WellFormed ∧ i ≠ .sync) →
    ∃ t a, runInstrs (is ++ [.sync]) s = .next t ∧ t.response = some (.actions a) ∧
      a.mask.getLsbD 0 = (s.send.arm || decide (.arm ∈ is)) ∧
      a.mask.getLsbD 1 = (s.send.disarm || decide (.disarm ∈ is)) ∧
      a.mask.getLsbD 2 = (s.send.estop || decide (.estop ∈ is)) ∧
      t.send.arm = false ∧ t.send.disarm = false ∧ t.send.estop = false

/-! ### Rules about the whole machine -/

/-- R52, R54, R58 (whole-machine sentences): only `ARM` and `DISARM` change `CS.armed`; only `ESTOP_CLR` clears
`CS.estop`, over whole runs as well as single instructions. -/
def Obligations.LatchesMoveOnlyWhereTheRulesSay : Prop :=
  (∀ (i : Instr) (s t : State), exec i s = .next t → t.cs.armed ≠ s.cs.armed → i = .arm ∨ i = .disarm) ∧
  (∀ (is : List Instr) (s t : State), runInstrs is s = .next t → s.cs.estop = true → .estopClr ∉ is →
    t.cs.estop = true)

/-- R15, W cells (a summary table of the spec): an instruction changes no register outside its row, and no byte of `TX`
outside it, and consumes no input. -/
def Obligations.OnlyListedRegistersAreWritten : Prop :=
  ∀ (i : Instr) (s t : State), exec i s = .next t → UnchangedExcept (writes i) s t

/-- R15, R cells (a summary table of the spec): two states that agree on the registers an instruction's row reads get the
same response, and every register is either set to the same value in both or left alone in both. So `TXBUF` and the
response are never read back (R13), the codec reads nothing, and `MODE` is read by `ENCODE` and `SYNC` only (R71). -/
def Obligations.OnlyListedRegistersAreRead : Prop :=
  ∀ (i : Instr) (s t s' : State), Memory.wf s.txbuf = true → Memory.wf t.txbuf = true →
    (∀ r ∈ reads i, s.readReg r = t.readReg r) → exec i s = .next s' →
    ∃ t', exec i t = .next t' ∧ t'.response = s'.response ∧
      ∀ r, s'.readReg r = t'.readReg r ∨ (s'.readReg r = s.readReg r ∧ t'.readReg r = t.readReg r)

/-- R75 (the spec's decision D20): a step whose response is an error changed no register; the errors are precise. -/
def Obligations.ErrorsLeaveNoTrace : Prop :=
  ∀ (s t : State) (e : Exception), step s = .next t → t.response = some (.error e) →
    SameRegs s t ∧ ∀ a, Memory.readByte t.txbuf a = Memory.readByte s.txbuf a

/-- The invariant of the block is kept by every step from every state that meets it. -/
def Obligations.StepKeepsTheInvariant : Prop :=
  ∀ s t : State, BlockInv s → step s = .next t → BlockInv t

/-- The reset state meets the invariant, whatever the open parameters are. -/
def Obligations.ResetMeetsTheInvariant : Prop :=
  (∀ mode tlmEn, BlockInv (State.resetWith mode tlmEn)) ∧ BlockInv State.reset

/-- R28, R90 (the spec's decision D1): a command the port can present gets exactly one response, and the step succeeds.
The rest is the model's choice: that the step takes the head of an input list (log entry 2), that a step with no input
succeeds and gives no response (log entry 3), and that a reset, which R81 gives no response, is one such input (log
entry 5). -/
def Obligations.EveryCommandGetsOneResponse : Prop :=
  ∀ s : State, InputsWellFormed s →
    ∃ t, step s = .next t ∧ t.inputs = s.inputs.tail ∧
      (t.response.isSome = true ↔ ∃ a c, s.inputs.head? = some (.command a c))

/-- R10, R67 (decision D17): outside a reset no step changes `MODE`, and only `TLM_EN` and `TLM_DIS` change `TLM_EN`. -/
def Obligations.ModeIsFixedForTheSession : Prop :=
  ∀ s t : State, step s = .next t → (∀ m e, s.inputs.head? ≠ some (.reset m e)) →
    t.mode = s.mode ∧
    (t.tlmEn ≠ s.tlmEn → ∃ a c, s.inputs.head? = some (.command a c) ∧ (decode c = .ok .tlmEn ∨ decode c = .ok .tlmDis))

/-- R73 (decision D24): a step of a disciplined RX agent changes nothing but the telemetry fields of a packet and the
control-side estop latch, which it can only set. -/
def Obligations.RxAgentWritesTelemetryAndEstopOnly : Prop :=
  ∀ (s t : State) (c : Command) (rest : List Input), s.inputs = .command .rx c :: rest →
    (Input.command .rx c).Disciplined → step s = .next t →
    (∀ r, r ∉ Reg.csEstop :: packetFields.map .ts → t.readReg r = s.readReg r) ∧
    (s.cs.estop = true → t.cs.estop = true)

/-- 10_state.md, opening: the widths of the registers add up to 565 bits, and every register's content fits its width. -/
def Obligations.StateIs565Bits : Prop :=
  (Reg.all.map Reg.width).sum = 565 ∧ (∀ r, Reg.all.count r = 1) ∧ ∀ (s : State) (r : Reg), s.readReg r < 2 ^ r.width

/-- R12, R13: there is no other state. Two states with canonical memories that agree on every register, on the pending
inputs and on the response are equal. -/
def Obligations.RegistersAreTheWholeState : Prop :=
  ∀ s t : State, Memory.wf s.txbuf = true → Memory.wf t.txbuf = true → (∀ r, s.readReg r = t.readReg r) →
    s.inputs = t.inputs → s.response = t.response → s = t

/-- R18: the four memory primitives. A read of `RX` takes the byte, or the two bytes with the lower address more
significant; a write of `TX` stores the low byte, or high byte then low byte; it changes no other address. That it keeps
the canonical form is about the model's form of `TX` (log entry 8), of which R18 says nothing. -/
def Obligations.MemoryPrimitivesAreBigEndian : Prop :=
  (∀ (rx : List Byte) (i : Nat) (b : Byte), rx[i]? = some b → memRead8 rx i = .ok b) ∧
  (∀ (rx : List Byte) (i : Nat) (hi lo : Byte), rx[i]? = some hi → rx[i + 1]? = some lo →
    memRead16 rx i = .ok (halfOfBytes hi lo)) ∧
  (∀ (m : Memory) (i : Fin 9) (v : Byte) (a : Nat), Memory.wf m = true →
    Memory.wf (memWrite8 m i v) = true ∧
    Memory.readByte (memWrite8 m i v) a = if a = i.val then some v else Memory.readByte m a) ∧
  (∀ (m : Memory) (i : Fin 8) (v : Half) (a : Nat), Memory.wf m = true →
    Memory.wf (memWrite16 m i v) = true ∧
    Memory.readByte (memWrite16 m i v) a =
      if a = i.val then some (highByte v) else if a = i.val + 1 then some (lowByte v) else Memory.readByte m a)

/-- E3, R55, R56 (an example of the spec, for every control state; decisions D4, D10): a packet the block sends and then
receives gives back the two bits and the rounded channels, clears the four status bits, and leaves the control state as
it was. -/
def Obligations.LoopBackGivesTheRoundedControlState : Prop :=
  ∀ s : State, s.mode = .packet → s.tlmEn = true → Memory.wf s.txbuf = true →
    ∃ p t u, exec .encode s = .next t ∧ t.response = some (.packet p) ∧ exec (.decode 9 p) t = .next u ∧
      u.cs = s.cs ∧ u.ts.armed = s.cs.armed ∧ u.ts.estop = s.cs.estop ∧
      u.ts.crashed = false ∧ u.ts.charging = false ∧ u.ts.charged = false ∧ u.ts.lowBattery = false ∧
      u.ts.acc = s.ts.acc ∧
      ∀ sel : Channel, u.ts.ch.get sel = f16ToF32 (f32ToF16 (s.cs.ch.get sel))

/-- P6, R24 (d) (decisions D11, D24): the two agents' commands do not commute. With telemetry enabled, an estop packet
taken before `ESTOP_CLR` leaves the latch clear, taken after it leaves the latch set; every other register of the control
side ends the same. -/
def Obligations.OrderOfTheAgentsMatters : Prop :=
  ∀ (s : State) (a b : Agent) (f : Byte) (data : List Byte) (rest : List Input),
    s.tlmEn = true → data.length = 8 → f.getLsbD 1 = true →
    let packet := Input.command a (encode (.decode 9 (f :: data)))
    let clear := Input.command b (encode .estopClr)
    ∃ t₁ t u₁ u : State,
      step { s with inputs := packet :: clear :: rest } = .next t₁ ∧ step t₁ = .next t ∧
      step { s with inputs := clear :: packet :: rest } = .next u₁ ∧ step u₁ = .next u ∧
      t.cs.estop = false ∧ u.cs.estop = true ∧ t.ts = u.ts ∧
      t.cs.armed = u.cs.armed ∧ t.cs.ch = u.cs.ch ∧ t.inputs = rest ∧ u.inputs = rest
end

