-- ==== Sys2Proof/Laws/State.lean ====
section
/-! SUPPORT. The small lemmas of the state: one per field per update, and the laws of the indexed views, so that no later
proof unfolds a record update. -/

namespace Sys2Proof.Machine

@[simp] theorem respond_cs (s : State) (r : Response) : (s.respond r).cs = s.cs := rfl
@[simp] theorem respond_ls (s : State) (r : Response) : (s.respond r).ls = s.ls := rfl
@[simp] theorem respond_send (s : State) (r : Response) : (s.respond r).send = s.send := rfl
@[simp] theorem respond_ts (s : State) (r : Response) : (s.respond r).ts = s.ts := rfl
@[simp] theorem respond_txbuf (s : State) (r : Response) : (s.respond r).txbuf = s.txbuf := rfl
@[simp] theorem respond_mode (s : State) (r : Response) : (s.respond r).mode = s.mode := rfl
@[simp] theorem respond_tlmEn (s : State) (r : Response) : (s.respond r).tlmEn = s.tlmEn := rfl
@[simp] theorem respond_inputs (s : State) (r : Response) : (s.respond r).inputs = s.inputs := rfl
@[simp] theorem respond_response (s : State) (r : Response) : (s.respond r).response = some r := rfl

/-- Taking an exception is answering with its status and nothing else (R75). -/
@[simp] theorem raiseException_eq (e : Exception) (s : State) : raiseException e s = s.respond (.error e) := rfl

@[simp] theorem accepted_cs (s : State) (l : List Input) : (s.accepted l).cs = s.cs := rfl
@[simp] theorem accepted_ls (s : State) (l : List Input) : (s.accepted l).ls = s.ls := rfl
@[simp] theorem accepted_send (s : State) (l : List Input) : (s.accepted l).send = s.send := rfl
@[simp] theorem accepted_ts (s : State) (l : List Input) : (s.accepted l).ts = s.ts := rfl
@[simp] theorem accepted_txbuf (s : State) (l : List Input) : (s.accepted l).txbuf = s.txbuf := rfl
@[simp] theorem accepted_mode (s : State) (l : List Input) : (s.accepted l).mode = s.mode := rfl
@[simp] theorem accepted_tlmEn (s : State) (l : List Input) : (s.accepted l).tlmEn = s.tlmEn := rfl
@[simp] theorem accepted_inputs (s : State) (l : List Input) : (s.accepted l).inputs = l := rfl
@[simp] theorem accepted_response (s : State) (l : List Input) : (s.accepted l).response = s.response := rfl

/-- The content of the registers depends on the register fields alone. -/
theorem readReg_congr {s t : State} (r : Reg) (h1 : t.cs = s.cs) (h2 : t.ls = s.ls) (h3 : t.send = s.send)
    (h4 : t.ts = s.ts) (h5 : t.txbuf = s.txbuf) (h6 : t.mode = s.mode) (h7 : t.tlmEn = s.tlmEn) :
    t.readReg r = s.readReg r := by
  cases r <;> simp only [State.readReg, h1, h2, h3, h4, h5, h6, h7]

@[simp] theorem respond_readReg (s : State) (x : Response) (r : Reg) : (s.respond x).readReg r = s.readReg r :=
  readReg_congr r rfl rfl rfl rfl rfl rfl rfl

@[simp] theorem accepted_readReg (s : State) (l : List Input) (r : Reg) : (s.accepted l).readReg r = s.readReg r :=
  readReg_congr r rfl rfl rfl rfl rfl rfl rfl

@[simp] theorem idleStep_readReg (s : State) (r : Reg) : (idleStep s).readReg r = s.readReg r :=
  readReg_congr r rfl rfl rfl rfl rfl rfl rfl

@[simp] theorem channels_get_set_same {α : Type} (ch : Channels α) (sel : Channel) (v : α) :
    (ch.set sel v).get sel = v := by
  cases sel <;> rfl

theorem channels_get_set_other {α : Type} (ch : Channels α) {sel other : Channel} (v : α) (h : other ≠ sel) :
    (ch.set sel v).get other = ch.get other := by
  cases sel <;> cases other <;> first | rfl | exact absurd rfl h

theorem channels_ext {α : Type} {a b : Channels α} (h : ∀ sel, a.get sel = b.get sel) : a = b := by
  obtain ⟨a0, a1, a2, a3⟩ := a
  obtain ⟨b0, b1, b2, b3⟩ := b
  have h0 : a0 = b0 := h .throttle
  have h1 : a1 = b1 := h .pitch
  have h2 : a2 = b2 := h .roll
  have h3 : a3 = b3 := h .yaw
  rw [h0, h1, h2, h3]

@[simp] theorem channels_zero_get (sel : Channel) : Channels.zero.get sel = 0 := by
  cases sel <;> rfl

@[simp] theorem axes_get_set_same {α : Type} (acc : Axes α) (sel : Axis) (v : α) : (acc.set sel v).get sel = v := by
  cases sel <;> rfl

theorem axes_get_set_other {α : Type} (acc : Axes α) {sel other : Axis} (v : α) (h : other ≠ sel) :
    (acc.set sel v).get other = acc.get other := by
  cases sel <;> cases other <;> first | rfl | exact absurd rfl h

/-- The acceleration registers are fields 5 to 7 of the read-out (R33). -/
@[simp] theorem field_axisField (ts : TelemetryState) (sel : Axis) : ts.field (axisField sel) = ts.acc.get sel := by
  cases sel <;> rfl

@[simp] theorem boolWord_toNat (b : Bool) : (boolWord b).toNat = b.toNat := by
  cases b <;> rfl

/-- The two literal latch functions reduce as R57 and R58 say. -/
@[simp] theorem estopLatchNext_eq_or (old inp : Bool) : estopLatchNext old inp = (old || inp) := by
  cases old <;> cases inp <;> rfl

@[simp] theorem armedLatchNext_eq_old (old inp : Bool) : armedLatchNext old inp = old := by
  cases old <;> cases inp <;> rfl

theorem unchangedExcept_of_fields {changed : List Reg} {s t : State} (hr : ∀ r, r ∉ changed → t.readReg r = s.readReg r)
    (hm : t.txbuf = s.txbuf) (hi : t.inputs = s.inputs) : UnchangedExcept changed s t :=
  ⟨hr, fun a _ => by rw [hm], hi⟩

/-- An operation that only answers changes nothing. -/
theorem respond_unchanged (s : State) (r : Response) : UnchangedExcept [] s (s.respond r) :=
  unchangedExcept_of_fields (fun _ _ => respond_readReg s r _) rfl rfl

end Sys2Proof.Machine
end

