-- ==== Sys2Proof/Laws/Codec.lean ====
section
/-! SUPPORT. The fields of the two number formats as natural-number arithmetic, and the laws of the flag computations
(spec R37, R38, R40, R44, R55, R64): what later proofs cite instead of unfolding bit operations. -/

namespace Sys2Proof.Machine

theorem exp32_toNat (x : Word) : (exp32 x).toNat = x.toNat / 2 ^ 23 % 2 ^ 8 := by
  simp [exp32, Nat.shiftRight_eq_div_pow]

theorem man32_toNat (x : Word) : (man32 x).toNat = x.toNat % 2 ^ 23 := by
  simp [man32]

theorem exp16_toNat (h : Half) : (exp16 h).toNat = h.toNat / 2 ^ 10 % 2 ^ 5 := by
  simp [exp16, Nat.shiftRight_eq_div_pow]

theorem man16_toNat (h : Half) : (man16 h).toNat = h.toNat % 2 ^ 10 := by
  simp [man16]

theorem sign32_toNat (x : Word) : (sign32 x).toNat = x.toNat / 2 ^ 31 := by
  have hx := x.isLt
  simp only [sign32, BitVec.getLsbD, Nat.testBit, Nat.shiftRight_eq_div_pow]
  have h : x.toNat / 2 ^ 31 = 0 ∨ x.toNat / 2 ^ 31 = 1 := by omega
  rcases h with h | h <;> rw [h] <;> rfl

theorem sign16_toNat (h : Half) : (sign16 h).toNat = h.toNat / 2 ^ 15 := by
  have hh := h.isLt
  simp only [sign16, BitVec.getLsbD, Nat.testBit, Nat.shiftRight_eq_div_pow]
  have h : h.toNat / 2 ^ 15 = 0 ∨ h.toNat / 2 ^ 15 = 1 := by omega
  rcases h with h | h <;> rw [h] <;> rfl

/-- A bit at its place has the weight of its place. -/
theorem bitAt_toNat {w i : Nat} (b : Bool) (h : i < w) : (bitAt w i b).toNat = b.toNat * 2 ^ i := by
  cases b
  · simp [bitAt]
  · have h1 : 1 < 2 ^ w := Nat.one_lt_two_pow (by omega)
    have h2 : 2 ^ i < 2 ^ w := Nat.pow_lt_pow_right (by decide) h
    simp only [bitAt, BitVec.toNat_shiftLeft, BitVec.toNat_setWidth, Bool.toNat_true, Nat.shiftLeft_eq]
    simp [Nat.mod_eq_of_lt h1, Nat.mod_eq_of_lt h2]

/-- Sign, exponent and mantissa put together by OR are their weighted sum (R44). -/
theorem fields_or (s e m : Nat) (_hs : s < 2) (he : e < 2 ^ 8) (hm : m < 2 ^ 23) :
    ((s * 2 ^ 31) ||| (e * 2 ^ 23)) ||| m = s * 2 ^ 31 + e * 2 ^ 23 + m := by
  rw [← Nat.shiftLeft_eq s, ← Nat.shiftLeft_add_eq_or_of_lt (a := s) (i := 31) (b := e * 2 ^ 23) (by omega),
    Nat.shiftLeft_eq]
  have h : s * 2 ^ 31 + e * 2 ^ 23 = (s * 2 ^ 8 + e) <<< 23 := by
    rw [Nat.shiftLeft_eq]
    omega
  rw [h, ← Nat.shiftLeft_add_eq_or_of_lt hm]

/-- The bit scan finds the leading one of a mantissa (R44, D7). -/
theorem msbIndex_eq_log2 : ∀ m : BitVec 10, m ≠ 0 → msbIndex m = Nat.log2 m.toNat := by
  decide +kernel

/-- The flag byte of a control packet as a number (R55). -/
theorem controlFlags_eq (cs : ControlState) : controlFlags cs = BitVec.ofNat 8 (2 * cs.estop.toNat + cs.armed.toNat) := by
  unfold controlFlags
  cases cs.estop <;> cases cs.armed <;> decide

/-- The bits of `act_mask` (R40). -/
theorem actionMask_bits (send : SendFlags) (changed : Channels Bool) :
    (actionMask send changed).getLsbD 0 = send.arm ∧ (actionMask send changed).getLsbD 1 = send.disarm ∧
    (actionMask send changed).getLsbD 2 = send.estop ∧
    ∀ sel : Channel, (actionMask send changed).getLsbD (3 + sel.code.toNat) = changed.get sel := by
  obtain ⟨a, d, e⟩ := send
  obtain ⟨c0, c1, c2, c3⟩ := changed
  refine ⟨?_, ?_, ?_, fun sel => ?_⟩
  · revert a d e c0 c1 c2 c3; decide
  · revert a d e c0 c1 c2 c3; decide
  · revert a d e c0 c1 c2 c3; decide
  · cases sel <;> revert a d e c0 c1 c2 c3 <;> decide

/-- Which channels a `SYNC` reports (R64). -/
@[simp] theorem changedChannels_get (cs ls : Channels Word) (sel : Channel) :
    (changedChannels cs ls).get sel = fneq (cs.get sel) (ls.get sel) := by
  cases sel <;> rfl

/-- The values a `SYNC` reports (R40, R64). -/
@[simp] theorem actionSet_val_get (send : SendFlags) (cs ls : Channels Word) (sel : Channel) :
    (actionSet send cs ls).val.get sel = valueWhen (fneq (cs.get sel) (ls.get sel)) (cs.get sel) := by
  cases sel <;> rfl

/-- A channel compared with itself differs exactly when it holds a NaN (R65). -/
theorem fneq_self (x : Word) : fneq x x = isNan32 x := by
  simp [fneq]

end Sys2Proof.Machine
end

