-- ==== Sys2Proof/Laws/Memory.lean ====
section
/-! SUPPORT. The laws of the `TX` space: a byte written is the byte read, every other byte is as before, every write keeps
the canonical form, and canonical memories that read alike are equal (spec R17, R18). -/

namespace Sys2Proof.Machine

theorem wfFrom_mono {lo lo' : Nat} (h : lo ≤ lo') : ∀ {m : Memory}, Memory.wfFrom lo' m = true → Memory.wfFrom lo m = true
  | [], _ => rfl
  | (k, b) :: rest, hw => by
    simp only [Memory.wfFrom, Bool.and_eq_true, decide_eq_true_eq] at hw ⊢
    exact ⟨⟨⟨h.trans hw.1.1.1, hw.1.1.2⟩, hw.1.2⟩, hw.2⟩

theorem byteAt_below {lo a : Nat} (ha : a < lo) : ∀ {m : Memory}, Memory.wfFrom lo m = true → Memory.byteAt m a = resetByte
  | [], _ => rfl
  | (k, b) :: rest, hw => by
    simp only [Memory.wfFrom, Bool.and_eq_true, decide_eq_true_eq] at hw
    have hne : a ≠ k := by omega
    simp only [Memory.byteAt, hne, if_false]
    exact byteAt_below (by omega) hw.2

/-- A write keeps the canonical form. -/
theorem setByte_wfFrom {lo a : Nat} (v : Byte) (hlo : lo ≤ a) (ha : a < txSize) :
    ∀ {m : Memory}, Memory.wfFrom lo m = true → Memory.wfFrom lo (m.setByte a v) = true := by
  intro m
  induction m generalizing lo with
  | nil =>
    intro _
    simp only [Memory.setByte]
    split
    · rfl
    · next h => simp [Memory.wfFrom, hlo, ha, h]
  | cons c rest ih =>
    obtain ⟨k, b⟩ := c
    intro hw
    have hw' := hw
    simp only [Memory.wfFrom, Bool.and_eq_true, decide_eq_true_eq] at hw
    obtain ⟨⟨⟨h1, h2⟩, h3⟩, h4⟩ := hw
    simp only [Memory.setByte]
    split
    · next hlt =>
      split
      · exact hw'
      · next hv =>
        have : Memory.wfFrom (a + 1) ((k, b) :: rest) = true := by
          simp only [Memory.wfFrom, Bool.and_eq_true, decide_eq_true_eq]
          exact ⟨⟨⟨hlt, h2⟩, h3⟩, h4⟩
        rw [Memory.wfFrom, this]
        simp [hlo, ha, hv]
    · split
      · next hnlt heq =>
        subst heq
        split
        · exact wfFrom_mono (by omega) h4
        · next hv =>
          rw [Memory.wfFrom, h4]
          simp [hlo, ha, hv]
      · next hnlt hne =>
        rw [Memory.wfFrom, ih (by omega) h4]
        simp [h1, h2, h3]

/-- Read after write: the written byte at the address written, every other byte as before. -/
theorem byteAt_setByte {lo a : Nat} (v : Byte) (x : Nat) : ∀ {m : Memory}, Memory.wfFrom lo m = true →
    Memory.byteAt (m.setByte a v) x = if x = a then v else Memory.byteAt m x := by
  intro m
  induction m generalizing lo with
  | nil =>
    intro _
    by_cases hv : v = resetByte <;> by_cases hx : x = a <;> simp [Memory.setByte, Memory.byteAt, hv, hx]
  | cons c rest ih =>
    obtain ⟨k, b⟩ := c
    intro hw
    have hw' := hw
    simp only [Memory.wfFrom, Bool.and_eq_true, decide_eq_true_eq] at hw
    obtain ⟨⟨⟨h1, h2⟩, h3⟩, h4⟩ := hw
    by_cases hlt : a < k
    · have hbelow : Memory.byteAt ((k, b) :: rest) a = resetByte :=
        byteAt_below (lo := k) hlt (by
          simp only [Memory.wfFrom, Bool.and_eq_true, decide_eq_true_eq]
          exact ⟨⟨⟨le_rfl, h2⟩, h3⟩, h4⟩)
      by_cases hv : v = resetByte
      · by_cases hx : x = a
        · subst hx; simp only [Memory.setByte, hlt, hv, if_true]; exact hbelow
        · simp [Memory.setByte, hlt, hv, hx]
      · simp [Memory.setByte, Memory.byteAt, hlt, hv]
    · by_cases heq : a = k
      · subst heq
        by_cases hv : v = resetByte
        · by_cases hx : x = a
          · subst hx; simp [Memory.setByte, hv, byteAt_below (Nat.lt_succ_self x) h4]
          · simp [Memory.setByte, Memory.byteAt, hv, hx]
        · by_cases hx : x = a <;> simp [Memory.setByte, Memory.byteAt, hv, hx]
      · have hset : Memory.setByte ((k, b) :: rest) a v = (k, b) :: Memory.setByte rest a v := by
          simp [Memory.setByte, hlt, heq]
        rw [hset]
        by_cases hxk : x = k
        · subst hxk
          have hxa : x ≠ a := fun h => heq h.symm
          simp [Memory.byteAt, hxa]
        · simp only [Memory.byteAt, hxk, if_false]
          exact ih h4

/-- `MemWrite(TX+i, 1, v)`: canonical form kept, one byte written, every other byte as before (R18). -/
theorem memWrite8_spec {m : Memory} (hm : Memory.wf m = true) (i : Fin 9) (v : Byte) :
    Memory.wf (memWrite8 m i v) = true ∧
    ∀ x, Memory.byteAt (memWrite8 m i v) x = if x = i.val then v else Memory.byteAt m x :=
  ⟨setByte_wfFrom v (Nat.zero_le _) i.isLt hm, fun x => byteAt_setByte v x hm⟩

/-- `MemWrite(TX+i, 2, v)`: canonical form kept, high byte then low byte written, every other byte as before (R18). -/
theorem memWrite16_spec {m : Memory} (hm : Memory.wf m = true) (i : Fin 8) (v : Half) :
    Memory.wf (memWrite16 m i v) = true ∧
    ∀ x, Memory.byteAt (memWrite16 m i v) x =
      if x = i.val + 1 then v.extractLsb' 0 8 else if x = i.val then v.extractLsb' 8 8 else Memory.byteAt m x := by
  have h8 : i.val < txSize := by have := i.isLt; simp only [txSize]; omega
  have h9 : i.val + 1 < txSize := by have := i.isLt; simp only [txSize]; omega
  have hw := setByte_wfFrom (v.extractLsb' 8 8) (Nat.zero_le _) h8 hm
  refine ⟨setByte_wfFrom _ (Nat.zero_le _) h9 hw, fun x => ?_⟩
  simp only [memWrite16]
  rw [byteAt_setByte _ x hw, byteAt_setByte _ x hm]

/-- Canonical memories that hold the same bytes are equal. -/
theorem wfFrom_ext {lo : Nat} : ∀ {m n : Memory}, Memory.wfFrom lo m = true → Memory.wfFrom lo n = true →
    (∀ x, Memory.byteAt m x = Memory.byteAt n x) → m = n := by
  intro m
  induction m generalizing lo with
  | nil =>
    intro n _ hn h
    cases n with
    | nil => rfl
    | cons c rest =>
      obtain ⟨k, b⟩ := c
      simp only [Memory.wfFrom, Bool.and_eq_true, bne_iff_ne] at hn
      have := h k
      simp [Memory.byteAt] at this
      exact absurd this.symm hn.1.2
  | cons c rest ih =>
    obtain ⟨k, b⟩ := c
    intro n hm hn h
    have hm' := hm
    simp only [Memory.wfFrom, Bool.and_eq_true, decide_eq_true_eq, bne_iff_ne] at hm
    cases n with
    | nil =>
      have := h k
      simp [Memory.byteAt] at this
      exact absurd this hm.1.2
    | cons c' rest' =>
      obtain ⟨k', b'⟩ := c'
      have hn' := hn
      simp only [Memory.wfFrom, Bool.and_eq_true, decide_eq_true_eq, bne_iff_ne] at hn
      have hkk : k = k' := by
        rcases lt_trichotomy k k' with hlt | heq | hlt
        · have hz : Memory.byteAt ((k', b') :: rest') k = resetByte :=
            byteAt_below (lo := k') hlt (by
              simp only [Memory.wfFrom, Bool.and_eq_true, decide_eq_true_eq, bne_iff_ne]
              exact ⟨⟨⟨le_rfl, hn.1.1.2⟩, hn.1.2⟩, hn.2⟩)
          have := h k
          rw [hz] at this
          simp [Memory.byteAt] at this
          exact absurd this hm.1.2
        · exact heq
        · have hz : Memory.byteAt ((k, b) :: rest) k' = resetByte :=
            byteAt_below (lo := k) hlt (by
              simp only [Memory.wfFrom, Bool.and_eq_true, decide_eq_true_eq, bne_iff_ne]
              exact ⟨⟨⟨le_rfl, hm.1.1.2⟩, hm.1.2⟩, hm.2⟩)
          have := h k'
          rw [hz] at this
          simp [Memory.byteAt] at this
          exact absurd this.symm hn.1.2
      subst hkk
      have hbb : b = b' := by simpa [Memory.byteAt] using h k
      subst hbb
      rw [ih hm.2 hn.2 fun x => ?_]
      by_cases hx : x = k
      · subst hx
        rw [byteAt_below (Nat.lt_succ_self x) hm.2, byteAt_below (Nat.lt_succ_self x) hn.2]
      · simpa [Memory.byteAt, hx] using h x

/-- No byte is held outside `TX`. -/
theorem byteAt_outside {lo a : Nat} (ha : txSize ≤ a) : ∀ {m : Memory}, Memory.wfFrom lo m = true →
    Memory.byteAt m a = resetByte
  | [], _ => rfl
  | (k, b) :: rest, hw => by
    simp only [Memory.wfFrom, Bool.and_eq_true, decide_eq_true_eq] at hw
    have hne : a ≠ k := by omega
    simp only [Memory.byteAt, hne, if_false]
    exact byteAt_outside ha hw.2

/-- Canonical memories with the same nine bytes are equal. -/
theorem memory_ext {m n : Memory} (hm : Memory.wf m = true) (hn : Memory.wf n = true)
    (h : ∀ i : Fin 9, Memory.byteAt m i = Memory.byteAt n i) : m = n :=
  wfFrom_ext hm hn fun x => by
    by_cases hx : x < txSize
    · exact h ⟨x, hx⟩
    · rw [byteAt_outside (by omega) hm, byteAt_outside (by omega) hn]

/-- `ENCODE` keeps the canonical form (R55). -/
theorem encodePacket_wf (cs : ControlState) {m : Memory} (hm : Memory.wf m = true) :
    Memory.wf (encodePacket cs m) = true :=
  (memWrite16_spec (memWrite16_spec (memWrite16_spec (memWrite16_spec (memWrite8_spec hm 0 _).1 1 _).1 3 _).1 5 _).1 7 _).1

/-- What `ENCODE` stores, byte by byte (R55): none of the old content is left. -/
theorem encodePacket_byteAt (cs : ControlState) {m : Memory} (hm : Memory.wf m = true) (x : Nat) :
    Memory.byteAt (encodePacket cs m) x =
      if x = 8 then (f32ToF16 cs.ch.yaw).extractLsb' 0 8
      else if x = 7 then (f32ToF16 cs.ch.yaw).extractLsb' 8 8
      else if x = 6 then (f32ToF16 cs.ch.roll).extractLsb' 0 8
      else if x = 5 then (f32ToF16 cs.ch.roll).extractLsb' 8 8
      else if x = 4 then (f32ToF16 cs.ch.pitch).extractLsb' 0 8
      else if x = 3 then (f32ToF16 cs.ch.pitch).extractLsb' 8 8
      else if x = 2 then (f32ToF16 cs.ch.throttle).extractLsb' 0 8
      else if x = 1 then (f32ToF16 cs.ch.throttle).extractLsb' 8 8
      else if x = 0 then controlFlags cs
      else Memory.byteAt m x := by
  have h0 := memWrite8_spec hm 0 (controlFlags cs)
  have h1 := memWrite16_spec h0.1 1 (f32ToF16 cs.ch.throttle)
  have h3 := memWrite16_spec h1.1 3 (f32ToF16 cs.ch.pitch)
  have h5 := memWrite16_spec h3.1 5 (f32ToF16 cs.ch.roll)
  have h7 := memWrite16_spec h5.1 7 (f32ToF16 cs.ch.yaw)
  simp only [encodePacket]
  rw [h7.2, h5.2, h3.2, h1.2, h0.2]
  rfl

end Sys2Proof.Machine
end

