-- ==== Sys2Proof/Laws/Exec.lean ====
section
/-! SUPPORT. What one instruction and one step can do, said once: `DECODE`'s three outcomes, the instructions that never
stop, and the cases of a step. -/

namespace Sys2Proof.Machine

/-- A packet operand of nine bytes is read without a fault, field by field (R56). -/
theorem readPacket_nine (f b1 b2 b3 b4 b5 b6 b7 b8 : Byte) :
    readPacket [f, b1, b2, b3, b4, b5, b6, b7, b8] =
      .ok { flags := f, throttle := concatBytes b1 b2, pitch := concatBytes b3 b4,
            roll := concatBytes b5 b6, yaw := concatBytes b7 b8 } := rfl

/-- A 16-bit field is its first byte times 256 plus its second (R18). -/
theorem concatBytes_toNat (hi lo : Byte) : (concatBytes hi lo).toNat = hi.toNat * 256 + lo.toNat := by
  have h : (concatBytes hi lo).toNat = hi.toNat <<< 8 ||| lo.toNat := BitVec.toNat_append hi lo
  rw [h, ← Nat.shiftLeft_add_eq_or_of_lt lo.isLt, Nat.shiftLeft_eq]

/-- The two bytes `MemWrite(TX+i, 2, v)` stores read back as `v` (R18). -/
theorem concatBytes_split (v : Half) : concatBytes (v.extractLsb' 8 8) (v.extractLsb' 0 8) = v := by
  apply BitVec.eq_of_toNat_eq
  rw [concatBytes_toNat]
  simp only [BitVec.extractLsb'_toNat, Nat.shiftRight_eq_div_pow]
  have := v.isLt
  omega

theorem readPacket_of_length {rx : List Byte} (h : rx.length = 9) : ∃ p, readPacket rx = .ok p := by
  match rx, h with
  | [f, b1, b2, b3, b4, b5, b6, b7, b8], _ => exact ⟨_, readPacket_nine f b1 b2 b3 b4 b5 b6 b7 b8⟩

/-- `DECODE` in three cases (R56): admitted, not admitted, or, only for an operand shorter than its length says, stopped
by a read outside `RX`. -/
theorem execDecode_cases (n : BitVec 8) (rx : List Byte) (s : State) :
    (n = 9 ∧ s.tlmEn = true ∧ ∃ p, readPacket rx = .ok p ∧ execDecode n rx s = .next (admitPacket p s)) ∨
    (¬(n = 9 ∧ s.tlmEn = true) ∧ execDecode n rx s = .next (rejectPacket s)) ∨
    (n = 9 ∧ s.tlmEn = true ∧ ∃ f, readPacket rx = .error f ∧ execDecode n rx s = .fault f) := by
  have hn : n.toNat = Config.packetLen ↔ n = 9 := by
    constructor
    · intro h; exact BitVec.eq_of_toNat_eq h
    · rintro rfl; rfl
  by_cases hc : n = 9 ∧ s.tlmEn = true
  · have hc' : n.toNat = Config.packetLen ∧ s.tlmEn = true := ⟨hn.2 hc.1, hc.2⟩
    cases hp : readPacket rx with
    | ok p => exact .inl ⟨hc.1, hc.2, p, rfl, by simp only [execDecode, hc', hp, and_self, if_true]⟩
    | error f => exact .inr (.inr ⟨hc.1, hc.2, f, rfl, by simp only [execDecode, hc', hp, and_self, if_true]⟩)
  · have hc' : ¬(n.toNat = Config.packetLen ∧ s.tlmEn = true) := fun h => hc ⟨hn.1 h.1, h.2⟩
    exact .inr (.inl ⟨hc, by simp only [execDecode, hc', if_false]⟩)

/-- A packet that is not admitted leaves every register alone (R56, R69). -/
theorem rejectPacket_eq (s : State) :
    rejectPacket s = s.respond (if s.tlmEn then .error .malformedPacket else .ok) := by
  simp only [rejectPacket, raiseException_eq]
  split <;> rfl

/-- A well-formed instruction never stops (R68, R90). -/
theorem exec_next_of_wellFormed (i : Instr) (hi : i.WellFormed) (s : State) : ∃ t, exec i s = .next t := by
  cases i with
  | decode n rx =>
    rcases execDecode_cases n rx s with ⟨_, _, p, _, h⟩ | ⟨_, h⟩ | ⟨hn, _, f, hf, _⟩
    · exact ⟨_, h⟩
    · exact ⟨_, h⟩
    · have hlen : rx.length = 9 := by
        have : rx.length = n.toNat := hi
        rw [this, hn]; rfl
      obtain ⟨p, hp⟩ := readPacket_of_length hlen
      rw [hp] at hf
      cases hf
  | _ => exact ⟨_, rfl⟩

/-- The cases of a step: idle, a reset, an instruction executed, an illegal command. -/
theorem step_cases (s : State) :
    (s.inputs = [] ∧ step s = .next (idleStep s)) ∨
    (∃ m e rest, s.inputs = .reset m e :: rest ∧ step s = .next (applyReset m e rest)) ∨
    (∃ a c rest i, s.inputs = .command a c :: rest ∧ decode c = .ok i ∧ step s = exec i (s.accepted rest)) ∨
    (∃ a c rest e, s.inputs = .command a c :: rest ∧ decode c = .error e ∧
      step s = .next ((s.accepted rest).respond (.error .illegalCommand))) := by
  cases hin : s.inputs with
  | nil => exact .inl ⟨rfl, by simp only [step, takeInput, hin]⟩
  | cons x rest =>
    cases x with
    | reset m e => exact .inr (.inl ⟨m, e, rest, rfl, by simp only [step, takeInput, hin]⟩)
    | command a c =>
      cases hd : decode c with
      | ok i => exact .inr (.inr (.inl ⟨a, c, rest, i, rfl, hd, by simp only [step, takeInput, hin, hd]⟩))
      | error e =>
        exact .inr (.inr (.inr ⟨a, c, rest, e, rfl, hd, by simp only [step, takeInput, hin, hd, raiseException_eq]⟩))

end Sys2Proof.Machine
end

