-- ==== Sys2Proof/Laws/PerInstr.lean ====
section
/-! SUPPORT. Facts about every instruction as syntax, one lemma per constructor. -/

/-- The command of a well-formed instruction can be presented on the port (spec R17, R28). -/
abbrev Sys2Proof.Laws.EncodeFitsThePort.Statement (i : Sys2Proof.Instr) : Prop :=
  i.WellFormed → (Sys2Proof.encode i).WellFormed

namespace Sys2Proof.Laws.EncodeFitsThePort

theorem f32ToF16 (x : Word) : Statement (.f32ToF16 x) := fun _ => rfl
theorem f16ToF32 (h : Half) : Statement (.f16ToF32 h) := fun _ => rfl
theorem setch (sel : Channel) (v : Word) : Statement (.setch sel v) := fun _ => rfl
theorem setacc (sel : Axis) (v : Word) : Statement (.setacc sel v) := fun _ => rfl
theorem arm : Statement .arm := fun _ => rfl
theorem disarm : Statement .disarm := fun _ => rfl
theorem estop : Statement .estop := fun _ => rfl
theorem estopClr : Statement .estopClr := fun _ => rfl
theorem encode : Statement .encode := fun _ => rfl
theorem sync : Statement .sync := fun _ => rfl
theorem decode (rxLen : BitVec 8) (rxData : List Byte) : Statement (.decode rxLen rxData) := fun h => h
theorem tlmEn : Statement .tlmEn := fun _ => rfl
theorem tlmDis : Statement .tlmDis := fun _ => rfl
theorem get (fid : TlmField) : Statement (.get fid) := fun _ => rfl

end Sys2Proof.Laws.EncodeFitsThePort
end

