-- ==== Sys2Proof/Machine/Assembler.lean ====
section
/-! DEFINITION. The textual form of a command (spec R41), written and read, and the aliases and pseudo-instructions
(R42). No part of the block: it is how the spec writes its programs down. Log entry 12. -/

namespace Sys2Proof.Machine

/-- The row of the opcode map an instruction belongs to (R30). -/
def Instr.op : Instr → Op
  | .f32ToF16 _ => .f32ToF16
  | .f16ToF32 _ => .f16ToF32
  | .setch _ _ => .setch
  | .setacc _ _ => .setacc
  | .arm => .arm
  | .disarm => .disarm
  | .estop => .estop
  | .estopClr => .estopClr
  | .encode => .encode
  | .sync => .sync
  | .decode _ _ => .decode
  | .tlmEn => .tlmEn
  | .tlmDis => .tlmDis
  | .get _ => .get

/-- The mnemonics of R30. -/
def Op.mnemonic : Op → String
  | .f32ToF16 => "F32_TO_F16"
  | .f16ToF32 => "F16_TO_F32"
  | .setch => "SETCH"
  | .setacc => "SETACC"
  | .arm => "ARM"
  | .disarm => "DISARM"
  | .estop => "ESTOP"
  | .estopClr => "ESTOP_CLR"
  | .encode => "ENCODE"
  | .sync => "SYNC"
  | .decode => "DECODE"
  | .tlmEn => "TLM_EN"
  | .tlmDis => "TLM_DIS"
  | .get => "GET"

/-- Selector names (R31, R32, R33, R41). -/
def Channel.name : Channel → String
  | .throttle => "throttle"
  | .pitch => "pitch"
  | .roll => "roll"
  | .yaw => "yaw"

/-- Selector names (R32, R41). -/
def Axis.name : Axis → String
  | .accX => "accX"
  | .accY => "accY"
  | .accZ => "accZ"

/-- Selector names (R33, R41). -/
def TlmField.name : TlmField → String
  | .pitch => "pitch"
  | .armed => "armed"
  | .throttle => "throttle"
  | .roll => "roll"
  | .yaw => "yaw"
  | .accX => "accX"
  | .accY => "accY"
  | .accZ => "accZ"
  | .estop => "estop"
  | .crashed => "crashed"
  | .charging => "charging"
  | .charged => "charged"
  | .lowBattery => "low_battery"

/-- `n` hexadecimal digits of `v`, most significant first, capitals as in 95_test_vectors.md. -/
def hexDigits : Nat → Nat → List Char
  | 0, _ => []
  | n + 1, v => hexDigits n (v / 16) ++ [(Nat.digitChar (v % 16)).toUpper]

/-- A 32-bit pattern, `0x42480000` (R41). -/
def hexWord (v : Word) : String := "0x" ++ String.ofList (hexDigits 8 v.toNat)

/-- The bytes of a packet operand, separated by spaces (R41). -/
def hexBytes (bs : List Byte) : String := String.intercalate " " (bs.map fun b => String.ofList (hexDigits 2 b.toNat))

/-- One command as a line of text (R41). -/
def asmLine (i : Instr) : String :=
  (Op.mnemonic (Instr.op i)) ++
  match i with
  | .f32ToF16 x => " " ++ hexWord x
  | .f16ToF32 h => " " ++ hexWord (h.setWidth 32)
  | .setch sel v => " " ++ Channel.name sel ++ ", " ++ hexWord v
  | .setacc sel v => " " ++ Axis.name sel ++ ", " ++ hexWord v
  | .decode _ rxData => " [" ++ hexBytes rxData ++ "]"
  | .get fid => " " ++ TlmField.name fid
  | .arm | .disarm | .estop | .estopClr | .encode | .sync | .tlmEn | .tlmDis => ""

/-- The encoding of a line: `cmd / din`, `cmd / len / bytes` for `DECODE`, an unused `din` as `-` (R41). -/
def encodingForm (i : Instr) : String :=
  let c := encode i
  "0x" ++ String.ofList (hexDigits 2 c.cmd.toNat) ++ " / " ++
  match i with
  | .f32ToF16 _ | .f16ToF32 _ | .setch _ _ | .setacc _ _ => hexWord c.din
  | .decode rxLen rxData => toString rxLen.toNat ++ " / " ++ hexBytes rxData
  | .arm | .disarm | .estop | .estopClr | .encode | .sync | .tlmEn | .tlmDis | .get _ => "-"

/-- The aliases and pseudo-instructions of R42. -/
inductive Pseudo where
  | toHalf (x : Word)
  | toFloat32 (h : Half)
  | diffAndSend
  | setThrottle (v : Word)
  | setPitch (v : Word)
  | setRoll (v : Word)
  | setYaw (v : Word)
  /-- `SEND`: `ENCODE` or `SYNC`, by the mode the program is assembled for. -/
  | send
  deriving DecidableEq, Repr

/-- What each expands to (R42); none expands to more than one command. -/
def expand (mode : TxMode) (p : Pseudo) : Instr :=
  match p with
  | .toHalf x => .f32ToF16 x
  | .toFloat32 h => .f16ToF32 h
  | .diffAndSend => .sync
  | .setThrottle v => .setch .throttle v
  | .setPitch v => .setch .pitch v
  | .setRoll v => .setch .roll v
  | .setYaw v => .setch .yaw v
  | .send =>
    match mode with
    | .packet => .encode
    | .delta => .sync

/-! ### Reading a line (R41, R42) -/

/-- The value of a digit in base 10 or 16. -/
def digitValue (base : Nat) (c : Char) : Option Nat :=
  let v :=
    if '0' ≤ c ∧ c ≤ '9' then c.toNat - '0'.toNat
    else if 'A' ≤ c ∧ c ≤ 'F' then c.toNat - 'A'.toNat + 10
    else if 'a' ≤ c ∧ c ≤ 'f' then c.toNat - 'a'.toNat + 10
    else base
  if v < base then some v else none

/-- The number a list of digits denotes, most significant first, on top of `acc`. -/
def digitsFrom (base acc : Nat) : List Char → Option Nat
  | [] => some acc
  | c :: rest =>
    match digitValue base c with
    | some d => digitsFrom base (acc * base + d) rest
    | none => none

/-- A number of at least one digit. -/
def readNumber (base : Nat) (cs : List Char) : Option Nat := if cs = [] then none else digitsFrom base 0 cs

/-- `num / den` rounded to the nearest integer, ties to even (R41). -/
def roundTiesToEven (num den : Nat) : Nat :=
  let q := num / den
  if 2 * (num % den) < den then q
  else if 2 * (num % den) = den then q + q % 2
  else q + 1

/-- The binary32 pattern nearest to `num / den`, ties to even (R41), without its sign. In units of 2^-149 (R37) the
number has `n` units; the last bit of a pattern in its binade weighs `2^step` units, and a pattern is `step * 2^23` plus
its mantissa counted in that weight, the leading one included. A number beyond the finite ones takes the infinity. -/
def nearestBinary32 (num den : Nat) : Nat :=
  let units := num * 2 ^ 149
  let step := Nat.log2 (units / den) - 23
  min (step * 2 ^ 23 + roundTiesToEven units (den * 2 ^ step)) 0x7F800000

/-- The digits before and after a decimal point. -/
def splitPoint : List Char → List Char × List Char
  | [] => ([], [])
  | c :: rest => if c = '.' then ([], rest) else (c :: (splitPoint rest).1, (splitPoint rest).2)

/-- A decimal float literal after `f:`, such as `-10.0` (R41). -/
def readFloat (cs : List Char) : Option Word :=
  let (negative, digits) :=
    match cs with
    | '-' :: rest => (true, rest)
    | _ => (false, cs)
  let (whole, fraction) := splitPoint digits
  match readNumber 10 (whole ++ fraction) with
  | some n => some (bitAt 32 31 negative ||| BitVec.ofNat 32 (nearestBinary32 n (10 ^ fraction.length)))
  | none => none

/-- A data operand: a hexadecimal pattern of at most 32 bits, or a float literal (R41). -/
def readData (cs : List Char) : Option Word :=
  match cs with
  | '0' :: 'x' :: rest =>
    match readNumber 16 rest with
    | some n => if n < 2 ^ 32 then some (BitVec.ofNat 32 n) else none
    | none => none
  | 'f' :: ':' :: rest => readFloat rest
  | _ => none

/-- The line without its comment (R41). -/
def dropComment (cs : List Char) : List Char := cs.takeWhile (· != ';')

/-- The words of a line: a space ends a word, and so does a comma or a bracket, which is a word of its own. -/
def wordsOf : List Char → List (List Char)
  | [] => []
  | c :: rest =>
    if c = ' ' then [] :: wordsOf rest
    else if c = ',' ∨ c = '[' ∨ c = ']' then [] :: [c] :: wordsOf rest
    else
      match wordsOf rest with
      | [] => [[c]]
      | w :: ws => if w = [','] ∨ w = ['['] ∨ w = [']'] then [c] :: w :: ws else (c :: w) :: ws

/-- The bytes of a packet operand up to the closing bracket, two hexadecimal digits each (R41). -/
def readBytes : List (List Char) → Option (List Byte)
  | [] => none
  | [w] => if w = [']'] then some [] else none
  | w :: ws =>
    match (if w.length = 2 then readNumber 16 w else none), readBytes ws with
    | some n, some bs => some (BitVec.ofNat 8 n :: bs)
    | _, _ => none

/-- The rows of the opcode map with their names, the aliases of R42 among them. -/
def mnemonicTable : List (String × Op) :=
  (opcodeTable.map fun row => (Op.mnemonic row.1, row.1)) ++
  [("f32_to_f16", .f32ToF16), ("f16_to_f32", .f16ToF32)] ++
  [("TOHALF", .f32ToF16), ("TOFLOAT32", .f16ToF32), ("DIFFANDSEND", .sync)]

/-- `SET_THROTTLE` and its like (R42). -/
def setChannelTable : List (String × Channel) :=
  [("SET_THROTTLE", .throttle), ("SET_PITCH", .pitch), ("SET_ROLL", .roll), ("SET_YAW", .yaw)]

/-- The value a name has in a table. -/
def lookupName {α : Type} (table : List (String × α)) (w : List Char) : Option α :=
  (table.find? fun entry => entry.1.toList == w).map (·.2)

/-- The command of an operation and its operand words (R29, R41): no operand; a data operand; a selector; a selector, a
comma and a data operand; or a packet in brackets, whose `rx_len` is the number of bytes listed. -/
def readOperands (op : Op) (ws : List (List Char)) : Option Command :=
  match op, ws with
  | .f32ToF16, [d] => (readData d).map fun v => codeWithData (baseCode .f32ToF16) v
  | .f16ToF32, [d] => (readData d).map fun v => codeWithData (baseCode .f16ToF32) v
  | .setch, [sel, [','], d] =>
    match lookupName (Channel.all.map fun c => (Channel.name c, c)) sel, readData d with
    | some c, some v => some (encode (.setch c v))
    | _, _ => none
  | .setacc, [sel, [','], d] =>
    match lookupName (Axis.all.map fun a => (Axis.name a, a)) sel, readData d with
    | some a, some v => some (encode (.setacc a v))
    | _, _ => none
  | .get, [sel] => (lookupName (TlmField.all.map fun f => (TlmField.name f, f)) sel).map fun f => encode (.get f)
  | .decode, ['['] :: rest =>
    match readBytes rest with
    | some bs => if bs.length ≤ Config.rxMaxLen then some (encode (.decode (BitVec.ofNat 8 bs.length) bs)) else none
    | none => none
  | .arm, [] | .disarm, [] | .estop, [] | .estopClr, [] | .encode, [] | .sync, [] | .tlmEn, [] | .tlmDis, [] =>
    some (codeOnly (baseCode op))
  | _, _ => none

/-- One line read, for a program assembled for a mode (R41, R42): `none` for a line that is not of the form, no command
for a line that is empty but for its comment, and one command for every other line. -/
def readLine (mode : TxMode) (line : List Char) : Option (List Command) :=
  match (wordsOf (dropComment line)).filter (· != []) with
  | [] => some []
  | w :: ws =>
    let one : Option Command :=
      match lookupName mnemonicTable w with
      | some op => readOperands op ws
      | none =>
        match lookupName setChannelTable w, ws with
        | some c, [d] => (readData d).map fun v => encode (.setch c v)
        | some _, _ => none
        | none, [] => if w = "SEND".toList then some (encode (expand mode .send)) else none
        | none, _ => none
    one.map fun c => [c]

end Sys2Proof.Machine
end

