-- ==== Sys2Proof/Tests/Slice0.lean ====
section
/-! SUPPORT. The model's own tests. The words of the decode tests are written out from R30 to R33; the expected values of
the execution tests are those of 95_test_vectors.md (the vector is named in each comment). The `witness_` theorems show
that the hypotheses of a statement can be met, clause by clause. -/

namespace Sys2Proof.Machine.Tests

/-- The next state of an instruction, if there is one. -/
def after (i : Instr) (s : State) : Option State :=
  match exec i s with
  | .next t => some t
  | .fault _ => none
  | .refused _ => none

/-- The next state of a step, if there is one. -/
def afterStep (s : State) : Option State :=
  match step s with
  | .next t => some t
  | .fault _ => none
  | .refused _ => none

/-- What the response port shows after an instruction. -/
def answer (i : Instr) (s : State) : Option Response := (after i s).bind (·.response)

/-- Packet mode, telemetry enabled. -/
def packetState : State := State.resetWith .packet true

/-- Delta mode, telemetry enabled. -/
def deltaState : State := State.resetWith .delta true

/-- The control state of E3: armed, 50.0, -10.0, 20.0, 5.0. -/
def flying : ControlState :=
  { armed := true, estop := false
    ch := { throttle := 0x42480000, pitch := 0xC1200000, roll := 0x41A00000, yaw := 0x40A00000 } }

/-- The packet of E3. -/
def flyingPacket : List Byte := [0x01, 0x52, 0x40, 0xC9, 0x00, 0x4D, 0x00, 0x45, 0x00]

/-- The packet of V5 line 2. -/
def fullPacket : List Byte := [0x3F, 0x3C, 0x00, 0xBC, 0x00, 0x7B, 0xFF, 0x00, 0x01]

/-! ### Well-formedness -/

theorem test_wellFormed_accepts_nine_bytes : (Instr.decode 9 flyingPacket).WellFormed := by decide
theorem test_wellFormed_refuses_short_operand : ¬(Instr.decode 9 [0x01]).WellFormed := by decide
theorem test_command_wellFormed_refuses_long_operand :
    ¬Command.WellFormed { cmd := 0x40, din := 0, rxLen := 1, rxData := [0x01, 0x02] } := by decide

/-! ### Decoding: one word for every constructor, unused operands not zero -/

theorem test_decode_f32ToF16 :
    decode { cmd := 0b00000001, din := 0x42480000, rxLen := 1, rxData := [0xAA] } = .ok (.f32ToF16 0x42480000) := by decide
theorem test_decode_f16ToF32 :
    decode { cmd := 0b00000010, din := 0xDEAD3C00, rxLen := 0, rxData := [] } = .ok (.f16ToF32 0x3C00) := by decide
theorem test_decode_setch :
    decode { cmd := 0b00010001, din := 0xC1200000, rxLen := 0, rxData := [] } = .ok (.setch .pitch 0xC1200000) := by decide
theorem test_decode_setacc :
    decode { cmd := 0b00010110, din := 0xC4800000, rxLen := 0, rxData := [] } = .ok (.setacc .accZ 0xC4800000) := by decide
theorem test_decode_arm : decode { cmd := 0b00100000, din := 0xFFFFFFFF, rxLen := 0, rxData := [] } = .ok .arm := by decide
theorem test_decode_disarm : decode (codeOnly 0b00100001) = .ok .disarm := by decide
theorem test_decode_estop : decode (codeOnly 0b00100010) = .ok .estop := by decide
theorem test_decode_estopClr : decode (codeOnly 0b00100011) = .ok .estopClr := by decide
theorem test_decode_encode : decode (codeOnly 0b00110000) = .ok .encode := by decide
theorem test_decode_sync : decode (codeOnly 0b00110001) = .ok .sync := by decide
theorem test_decode_decode :
    decode { cmd := 0b01000000, din := 7, rxLen := 2, rxData := [0x01, 0x52] } = .ok (.decode 2 [0x01, 0x52]) := by decide
theorem test_decode_tlmEn : decode (codeOnly 0b01000001) = .ok .tlmEn := by decide
theorem test_decode_tlmDis : decode (codeOnly 0b01000010) = .ok .tlmDis := by decide
theorem test_decode_get : decode (codeOnly 0b01010111) = .ok (.get .accZ) := by decide
theorem test_decode_rejects_zero : decode (codeOnly 0x00) = .error .unassignedCode := by decide
theorem test_decode_rejects_axis_3 : decode (codeOnly 0x17) = .error .axisSelector := by decide
theorem test_decode_rejects_field_13 : decode (codeOnly 0x5D) = .error .fieldSelector := by decide

/-! ### Execution -/

/-- V1: an exact tie goes away from zero. -/
theorem test_f32ToF16_tie_goes_up : answer (.f32ToF16 0x3F801000) packetState = some (.data 0x3C01) := by decide
/-- V1: the subnormal path, where `SUBNORMAL_OFFSET` decides. -/
theorem test_f32ToF16_subnormal : answer (.f32ToF16 0x38001000) packetState = some (.data 0x0200) := by decide
/-- V2: a subnormal is promoted by its leading one. -/
theorem test_f16ToF32_subnormal : answer (.f16ToF32 0x0155) packetState = some (.data 0x37AA8000) := by decide
/-- V2: exponent 31 is a normal binade. -/
theorem test_f16ToF32_exponent_31 : answer (.f16ToF32 0xFC00) packetState = some (.data 0xC7800000) := by decide
/-- V3. -/
theorem test_setch_roll :
    (after (.setch .roll 0x7FC00000) packetState).map (fun t => (t.cs.ch.roll, t.cs.ch.pitch)) =
      some (0x7FC00000, 0) := by decide
/-- V3: no interlock with the emergency stop. -/
theorem test_arm_no_interlock :
    (after .arm { packetState with cs := { packetState.cs with estop := true } }).map
      (fun t => (t.cs.armed, t.cs.estop, t.send.arm, t.send.disarm)) = some (true, true, true, false) := by decide
/-- V3: a pending arm request is not cancelled. -/
theorem test_disarm_keeps_pending_arm :
    ((after .arm packetState).bind (after .disarm)).map (fun t => (t.cs.armed, t.send.arm, t.send.disarm)) =
      some (false, true, true) := by decide
/-- V3. -/
theorem test_estop : (after .estop packetState).map (fun t => (t.cs.estop, t.send.estop)) = some (true, true) := by decide
/-- V3: the request stays pending. -/
theorem test_estopClr_keeps_request :
    ((after .estop packetState).bind (after .estopClr)).map (fun t => (t.cs.estop, t.send.estop)) =
      some (false, true) := by decide
/-- V4 line 2. -/
theorem test_encode_flying : answer .encode { packetState with cs := flying } = some (.packet flyingPacket) := by decide
/-- V4: refused in delta mode. -/
theorem test_encode_delta : answer .encode deltaState = some (.error .modeViolation) := by decide
/-- P3 steps 5 to 9: arm, pitch and yaw. -/
theorem test_sync_mask_0x51 :
    answer .sync
      { deltaState with
        cs := { armed := true, estop := false, ch := { throttle := 0, pitch := 0xC0A00000, roll := 0, yaw := 0x40200000 } }
        send := { arm := true, disarm := false, estop := false } } =
      some (.actions { mask := 0x51, val := { throttle := none, pitch := some 0xC0A00000, roll := none, yaw := some 0x40200000 } }) := by
  decide
/-- V8: a change of zero sign is not sent, but the snapshot takes it. -/
theorem test_sync_signed_zero :
    (after .sync { deltaState with cs := { deltaState.cs with ch := { Channels.zero with roll := 0x80000000 } } }).map
      (fun t => (t.response.map Response.status, t.ls.roll, t.send.arm)) = some (some 0, 0x80000000, false) := by decide
/-- V5 line 2. -/
theorem test_decode_full_packet :
    (after (.decode 9 fullPacket) packetState).map
      (fun t => (t.ts.ch.throttle, t.ts.ch.pitch, t.ts.ch.roll, t.ts.ch.yaw, t.cs.estop, t.cs.armed)) =
      some (0x3F800000, 0xBF800000, 0x477FE000, 0x33800000, true, false) := by decide
/-- V9: the enable is tested before the length. -/
theorem test_decode_lengths :
    answer (.decode 8 (flyingPacket.take 8)) packetState = some (.error .malformedPacket) ∧
    answer (.decode 8 (flyingPacket.take 8)) { packetState with tlmEn := false } = some .ok := by decide
/-- V7. -/
theorem test_tlmEn : (after .tlmEn { packetState with tlmEn := false }).map (·.tlmEn) = some true := by decide
/-- V7. -/
theorem test_tlmDis : (after .tlmDis packetState).map (·.tlmEn) = some false := by decide
/-- V7. -/
theorem test_setacc_accZ :
    (after (.setacc .accZ 0xC4800000) packetState).map (fun t => (t.ts.acc.accX, t.ts.acc.accZ)) =
      some (0, 0xC4800000) := by decide
/-- V7: `GET accZ` after it, and `GET low_battery` after V5 line 2. -/
theorem test_get_after :
    (after (.setacc .accZ 0xC4800000) packetState).bind (answer (.get .accZ)) = some (.data 0xC4800000) ∧
    (after (.decode 9 fullPacket) packetState).bind (answer (.get .lowBattery)) = some (.data 1) := by decide
/-- V9: an illegal command, as the next command after reset. -/
theorem test_step_illegal :
    (afterStep (packetState.withFetchWord 8 0x5D)).map (·.response) = some (some (.error .illegalCommand)) := by decide
/-- A command presented after reset is executed by the very next step. -/
theorem test_step_arm : (afterStep (packetState.withFetchWord 8 0x20)).map (·.cs.armed) = some true := by decide

/-! ### The textual form (R41, R42) -/

theorem test_asm_setch : asmLine (.setch .throttle 0x42480000) = "SETCH throttle, 0x42480000" := by decide
theorem test_asm_send : expand .packet .send = .encode ∧ expand .delta .send = .sync := by decide
theorem test_encodingForm_decode : encodingForm (.decode 2 [0x01, 0xC9]) = "0x40 / 2 / 01 C9" := by decide

/-- P1 step 3 and P3 step 8. -/
theorem test_asm_read_setch :
    readLine .packet "SETCH pitch, f:-10.0 ; nose down".toList = some [codeWithData 0x11 0xC1200000] ∧
    readLine .packet "SET_YAW f:2.5".toList = some [codeWithData 0x13 0x40200000] := by decide
/-- Two bytes as R41 writes them; a selector name that does not exist. -/
theorem test_asm_read_decode_and_get :
    readLine .packet "DECODE [01 C9]".toList = some [{ cmd := 0x40, din := 0, rxLen := 2, rxData := [0x01, 0xC9] }] ∧
    readLine .delta "GET low_battery".toList = some [codeOnly 0x5C] ∧ readLine .delta "GET accW".toList = none := by decide
/-- R42. -/
theorem test_asm_read_aliases :
    readLine .delta "SEND".toList = some [codeOnly 0x31] ∧ readLine .packet "SEND".toList = some [codeOnly 0x30] ∧
    readLine .packet "TOHALF 0x42480000".toList = some [codeWithData 0x01 0x42480000] ∧
    readLine .packet "; nothing".toList = some [] := by decide

/-! ### Witnesses: the hypotheses of each statement can be met -/

/-- Zeros behind a flag byte. -/
def flagPacket (f : Byte) : List Byte := f :: List.replicate 8 0

/-- Telemetry disabled. -/
def detachedState : State := { packetState with tlmEn := false }

theorem witness_DecodeOfEncodeIsTheInstruction :
    (Instr.decode 0 []).WellFormed ∧ (Instr.decode 255 (List.replicate 255 0xFF)).WellFormed :=
  ⟨rfl, List.length_replicate⟩
theorem witness_IllegalCodesAreThoseListed :
    (∀ w ∈ [0x00, 0x03, 0x0F, 0x17, 0x1F, 0x24, 0x2F, 0x32, 0x3F, 0x43, 0x4F, 0x5D, 0xFF], decodeTableWord 8 w = none) ∧
    (∀ w ∈ [0x01, 0x02, 0x10, 0x16, 0x20, 0x23, 0x30, 0x31, 0x40, 0x42, 0x50, 0x5C],
      (decodeTableWord 8 w).isSome = true) := by decide
theorem witness_DecodedInstructionKeepsItsCode :
    decode { cmd := 0x40, din := 7, rxLen := 9, rxData := flyingPacket } = .ok (.decode 9 flyingPacket) ∧
    Command.WellFormed { cmd := 0x40, din := 7, rxLen := 9, rxData := flyingPacket } := by decide
/-- Pairs that differ in every operand the format does not use: formats SD, D (half) and P. -/
theorem witness_UnusedOperandsAreIgnored :
    ∀ p ∈ [(Command.mk 0x13 5 0 [], Command.mk 0x13 5 1 [0xAA]),
           (Command.mk 0x02 0xDEAD3C00 0 [], Command.mk 0x02 0x00003C00 1 [0xAA]),
           (Command.mk 0x40 1 1 [0xAA], Command.mk 0x40 2 1 [0xAA]), (Command.mk 0x5D 1 0 [], Command.mk 0x5D 2 1 [0xAA])],
      p.1 ≠ p.2 ∧ p.1.cmd = p.2.cmd ∧
      (selectOp p.1.cmd ∈ [some .f32ToF16, some .setch, some .setacc] → p.1.din = p.2.din) ∧
      (selectOp p.1.cmd = some .f16ToF32 → p.1.din.extractLsb' 0 16 = p.2.din.extractLsb' 0 16) ∧
      (selectOp p.1.cmd = some .decode → p.1.rxLen = p.2.rxLen ∧ p.1.rxData = p.2.rxData) := by decide
theorem witness_StepRunsTheDecodedInstruction :
    ∃ s : State, s.inputs = .command .host (codeOnly 0x20) :: [.reset .delta true] ∧ decode (codeOnly 0x20) = .ok .arm :=
  ⟨{ packetState with inputs := [.command .host (codeOnly 0x20), .reset .delta true] }, rfl, by decide⟩
theorem witness_IllegalCommandChangesNothing :
    ∃ s : State, s.inputs = [.command .rx (codeOnly 0xFF)] ∧ decode (codeOnly 0xFF) = .error .unassignedCode :=
  ⟨{ packetState with inputs := [.command .rx (codeOnly 0xFF)] }, rfl, by decide⟩
theorem witness_ResetInputZeroesEveryRegister :
    ∃ s : State, s.inputs = [.reset .delta false] ∧ s.cs = flying :=
  ⟨{ packetState with inputs := [.reset .delta false], cs := flying }, rfl, rfl⟩
theorem witness_IdleStepChangesNothing : packetState.inputs = [] := rfl
theorem witness_AgentOfACommandMakesNoDifference : decode (codeOnly 0x22) = .ok .estop := by decide
theorem witness_FirstResetStateIsZero : Reg.txbuf 8 ≠ .mode ∧ Reg.txbuf 8 ≠ .tlmEn := by decide

/-- The largest finite pattern; 131040.0 itself and the pattern below it; a tie between two grid values. -/
theorem witness_NarrowingRoundsToNearestTiesAway :
    isFinite32 0x7F7FFFFF = true ∧ saturationThreshold = magnitude32 0x47FFF000 ∧ isFinite32 0x47FFF000 = true ∧
    magnitude32 0x47FFEFFF < saturationThreshold ∧ isFinite32 0x47FFEFFF = true ∧
    distance (magnitude32 0x3F801000) (grid 0x3C00) = distance (magnitude32 0x3F801000) (grid (gridIndex (f32ToF16 0x3F801000))) ∧
    isFinite32 0x3F801000 = true := by decide
/-- One pattern on the grid and one off it. -/
theorem witness_RoundTripIsExactOnTheGridOnly :
    isFinite32 0xC2340000 = true ∧ f16ToF32 (f32ToF16 0xC2340000) = 0xC2340000 ∧ grid 0x51A0 = magnitude32 0xC2340000 ∧
    isFinite32 0x3F800001 = true ∧ f16ToF32 (f32ToF16 0x3F800001) ≠ 0x3F800001 := by decide
theorem witness_WideningIsExactAndFinite : ∃ g h : Half, f16ToF32 g = f16ToF32 h := ⟨0xFFFF, 0xFFFF, rfl⟩
theorem witness_CodecKeepsOrder :
    isFinite32 0x007FFFFF = true ∧ isFinite32 0xFF7FFFFF = true ∧
    (0x007FFFFF#32).toNat % 2 ^ 31 ≤ (0xFF7FFFFF#32).toNat % 2 ^ 31 ∧ 0x7FFE < 0x7FFF ∧ 0x7FFF < 2 ^ 15 := by decide
/-- The last NaN that saturates, the first that does not, the last finite value that gives zero, and 2^-25 itself. -/
theorem witness_SpecialOperandsOfNarrowing :
    (exp32 0x7FFFEFFF = 255 ∧ (man32 0x7FFFEFFF).toNat < 0x7FF000) ∧
    (exp32 0xFFFFF000 = 255 ∧ 0x7FF000 ≤ (man32 0xFFFFF000).toNat) ∧
    (isFinite32 0x32FFFFFF = true ∧ magnitude32 0x32FFFFFF < 2 ^ 124) ∧ magnitude32 0x33000000 = 2 ^ 124 := by decide

theorem witness_EncodePacksTheControlState :
    ∃ s : State, s.mode = .packet ∧ Memory.wf s.txbuf = true ∧ s.txbuf = [(0, 3), (8, 0xFF)] :=
  ⟨{ packetState with txbuf := [(0, 3), (8, 0xFF)] }, rfl, rfl, rfl⟩
theorem witness_OtherModesSendIsRefused : deltaState.mode = .delta ∧ packetState.mode = .packet := ⟨rfl, rfl⟩
theorem witness_DecodeUpdatesTelemetryAndLatches : packetState.tlmEn = true ∧ deltaState.tlmEn = true := ⟨rfl, rfl⟩
theorem witness_DecodeIsInertWhenDisabled : detachedState.tlmEn = false := rfl
/-- The lengths of E7; the two ways not to raise; an over-long operand. -/
theorem witness_WrongLengthIsMalformedAndNothingIsRead :
    packetState.tlmEn = true ∧ (∀ n ∈ [0#8, 8#8, 10#8, 255#8], n ≠ 9#8) ∧
    flyingPacket.length = (9#8).toNat ∧ (([] : List Byte).length = (0#8).toNat ∧ detachedState.tlmEn = false) ∧
    (List.replicate 255 0x00#8).length = (255#8).toNat :=
  ⟨rfl, by decide, rfl, ⟨rfl, rfl⟩, List.length_replicate⟩
theorem witness_EstopLatchIsAnOr :
    packetState.tlmEn = true ∧ (List.replicate 8 0x00#8).length = 8 ∧ (0x02#8).getLsbD 1 = true ∧ (0xFD#8).getLsbD 1 = false ∧
    ∃ t, exec (.decode 9 (0x02 :: List.replicate 8 0x00)) packetState = .next t :=
  ⟨rfl, rfl, rfl, rfl, _, rfl⟩
theorem witness_ArmedLatchIgnoresTheWire :
    packetState.tlmEn = true ∧ (List.replicate 8 0x00#8).length = 8 ∧
    (∃ t, exec (.decode 9 (flagPacket 0x01)) packetState = .next t) ∧ (∃ t, exec (.decode 8 []) packetState = .next t) ∧
    ∃ t, exec .arm packetState = .next t ∧ t.cs.armed ≠ packetState.cs.armed :=
  ⟨rfl, rfl, ⟨_, rfl⟩, ⟨_, rfl⟩, _, rfl, by decide⟩
theorem witness_RawBitsOverwriteWhateverTheLatchesHold :
    packetState.tlmEn = true ∧ (List.replicate 8 0x00#8).length = 8 ∧ (0x02#8).getLsbD 1 = true ∧
    (0xFD#8).getLsbD 1 = false ∧ (∀ n rx, Instr.estop ≠ .decode n rx) ∧ ∃ t, exec .estop packetState = .next t :=
  ⟨rfl, rfl, rfl, rfl, nofun, _, rfl⟩

theorem witness_SyncReportsAndTakesTheSnapshot : deltaState.mode = .delta ∧ packetState.mode = .packet := ⟨rfl, rfl⟩
/-- The two zeros, the smallest NaN pattern, an infinity against the largest finite pattern. -/
theorem witness_ComparisonIsFloatNotEqual :
    (isFinite32 0x00000000 = true ∧ isFinite32 0x80000000 = true) ∧ isNan32 0x7F800001 = true ∧
    (isFinite32 0xFF800000 = false ∧ isNan32 0xFF800000 = false ∧ isNan32 0xFF7FFFFF = false) := by decide
theorem witness_SecondSyncSendsOnlyNans : deltaState.mode = .delta := rfl
theorem witness_OneShotRequestsAreReportedOnce :
    deltaState.mode = .delta ∧ ∀ i ∈ [Instr.arm, .decode 9 flyingPacket, .encode], i.WellFormed ∧ i ≠ .sync := by
  refine ⟨rfl, fun i hi => ?_⟩
  simp only [List.mem_cons, List.not_mem_nil, or_false] at hi
  rcases hi with rfl | rfl | rfl <;> decide
theorem witness_LatchesMoveOnlyWhereTheRulesSay :
    (∃ t, exec .disarm { packetState with cs := flying } = .next t ∧ t.cs.armed ≠ flying.armed) ∧
    ∃ s t, runInstrs [.decode 9 (flagPacket 0x00), .disarm] s = .next t ∧ s.cs.estop = true ∧
      Instr.estopClr ∉ [Instr.decode 9 (flagPacket 0x00), .disarm] :=
  ⟨⟨_, rfl, by decide⟩, { packetState with cs := { flying with estop := true } }, _, rfl, rfl, by decide⟩

theorem witness_OnlyListedRegistersAreWritten : ∃ t, exec .encode { packetState with cs := flying } = .next t := ⟨_, rfl⟩
/-- Two states that agree on what `ENCODE` reads and on nothing else. -/
theorem witness_OnlyListedRegistersAreRead :
    let s : State := { packetState with cs := flying }
    let t : State := { detachedState with cs := flying, ls := flying.ch, txbuf := [(4, 7)], ts := { packetState.ts with ch := flying.ch } }
    Memory.wf s.txbuf = true ∧ Memory.wf t.txbuf = true ∧ (∀ r ∈ reads .encode, s.readReg r = t.readReg r) ∧
    (after .encode s).isSome = true ∧ s.readReg (.txbuf 4) ≠ t.readReg (.txbuf 4) := by decide
theorem witness_ErrorsLeaveNoTrace :
    ∃ t, step (deltaState.present (codeOnly 0x30)) = .next t ∧ t.response = some (.error .modeViolation) := ⟨_, rfl, rfl⟩

/-- A state of packet mode in use: E3 has been sent and received, and a packet is pending. -/
def busyState : State :=
  { packetState with
    cs := flying, ts := { packetState.ts with ch := flying.ch, armed := true }
    txbuf := [(0, 0x01), (1, 0x52), (2, 0x40), (3, 0xC9), (5, 0x4D), (7, 0x45)]
    inputs := [.command .rx { cmd := 0x40, din := 0, rxLen := 9, rxData := fullPacket }]
    response := some (.packet flyingPacket) }

theorem witness_busyState_inv : BlockInv busyState where
  memory := by decide
  inputs := by simp only [InputsWellFormed, busyState, List.mem_singleton, forall_eq]; rfl
  reserved := by decide
  telemetry := by
    intro sel
    cases sel
    · exact ⟨0x5240, by decide⟩
    · exact ⟨0xC900, by decide⟩
    · exact ⟨0x4D00, by decide⟩
    · exact ⟨0x4500, by decide⟩
  packetMode := fun _ => rfl
  deltaMode := fun h => absurd h (by decide)
  txData := by
    intro p hp
    have h : p = flyingPacket := by simpa [busyState, eq_comm] using hp
    rw [h]
    decide
  actVal := by intro a ha; simp [busyState] at ha

theorem witness_StepKeepsTheInvariant : BlockInv busyState ∧ ∃ t, step busyState = .next t :=
  ⟨witness_busyState_inv, _, rfl⟩
theorem witness_EveryCommandGetsOneResponse : InputsWellFormed busyState := witness_busyState_inv.inputs
theorem witness_ModeIsFixedForTheSession :
    ∃ t, step (packetState.present (codeOnly 0x42)) = .next t ∧
      (∀ m e, (packetState.present (codeOnly 0x42)).inputs.head? ≠ some (.reset m e)) ∧ t.tlmEn ≠ packetState.tlmEn :=
  ⟨_, rfl, by simp [State.present], by decide⟩
theorem witness_RxAgentWritesTelemetryAndEstopOnly :
    ∃ c t, busyState.inputs = [.command .rx c] ∧ (Input.command .rx c).Disciplined ∧
      step { busyState with cs := { flying with estop := true } } = .next t :=
  ⟨_, _, rfl, by show Agent.rx = issuer _; decide, rfl⟩
theorem witness_RegistersAreTheWholeState : Memory.wf busyState.txbuf = true := by decide
/-- The first and the last address of each clause. -/
theorem witness_MemoryPrimitivesAreBigEndian :
    flyingPacket[0]? = some 0x01 ∧ flyingPacket[8]? = some 0x00 ∧
    (flyingPacket[7]? = some 0x45 ∧ flyingPacket[7 + 1]? = some 0x00) ∧ Memory.wf busyState.txbuf = true := by decide
theorem witness_LoopBackGivesTheRoundedControlState :
    busyState.mode = .packet ∧ busyState.tlmEn = true ∧ Memory.wf busyState.txbuf = true := by decide
theorem witness_OrderOfTheAgentsMatters :
    packetState.tlmEn = true ∧ (List.replicate 8 0x00#8).length = 8 ∧ (0x02#8).getLsbD 1 = true := by decide

end Sys2Proof.Machine.Tests
end

section
/-! The two codec operations as instructions (R49): each only answers, so it completes with the same data in every state
and every register keeps its content. -/

namespace Sys2Proof.Machine

/-- `F32_TO_F16` answers the code, zero-extended, and does nothing else. -/
theorem exec_f32ToF16 (x : Word) (s : State) :
    exec (.f32ToF16 x) s = .next (s.respond (.data ((f32ToF16 x).setWidth 32))) := rfl

/-- `F16_TO_F32` answers the pattern and does nothing else. -/
theorem exec_f16ToF32 (h : Half) (s : State) : exec (.f16ToF32 h) s = .next (s.respond (.data (f16ToF32 h))) := rfl

theorem respond_sameRegs (s : State) (r : Response) : SameRegs s (s.respond r) := respond_readReg s r

/-- The content of R49: an instruction that in every state only answers the data `d` is pure. The one `d` is chosen before
the two states, so it cannot depend on them. -/
theorem pure_of_exec_eq_respond {i : Instr} {d : Word} (h : ∀ s, exec i s = .next (s.respond (.data d))) (s u : State) :
    ∃ d t v, exec i s = .next t ∧ exec i u = .next v ∧
      t.response = some (.data d) ∧ v.response = some (.data d) ∧ SameRegs s t ∧ SameRegs u v :=
  ⟨d, _, _, h s, h u, respond_response s _, respond_response u _, respond_sameRegs s _, respond_sameRegs u _⟩

/-- Settles O16: both codec operations only answer, with data computed from the operand alone. -/
theorem codecOperationsArePure : Obligations.CodecOperationsArePure := by
  constructor
  · intro x
    exact pure_of_exec_eq_respond (exec_f32ToF16 x)
  · intro h
    exact pure_of_exec_eq_respond (exec_f16ToF32 h)

end Sys2Proof.Machine
end

section
/-! The telemetry instructions as rules: what an admitted packet leaves in the latches and in the two raw bits of `TS`
(R56 to R59), what a `DECODE` can end in, and one equation each for `TLM_DIS`, `SETACC` and `GET` (R61 to R63). -/

namespace Sys2Proof.Machine

/-! ### An admitted packet -/

@[simp] theorem admitPacket_tlmEn (p : RxPacket) (s : State) : (admitPacket p s).tlmEn = s.tlmEn := rfl

@[simp] theorem admitPacket_ts_armed (p : RxPacket) (s : State) : (admitPacket p s).ts.armed = p.flags.getLsbD 0 := rfl

@[simp] theorem admitPacket_ts_estop (p : RxPacket) (s : State) : (admitPacket p s).ts.estop = p.flags.getLsbD 1 := rfl

@[simp] theorem admitPacket_cs_estop (p : RxPacket) (s : State) :
    (admitPacket p s).cs.estop = estopLatchNext s.cs.estop (p.flags.getLsbD 1) := rfl

@[simp] theorem admitPacket_cs_armed (p : RxPacket) (s : State) : (admitPacket p s).cs.armed = s.cs.armed :=
  armedLatchNext_eq_old s.cs.armed (p.flags.getLsbD 0)

@[simp] theorem rejectPacket_cs (s : State) : (rejectPacket s).cs = s.cs := by
  rw [rejectPacket_eq, respond_cs]

/-! ### DECODE -/

/-- The flag byte of a packet is its first byte (R39, R56). -/
theorem readPacket_flags {f : Byte} {rest : List Byte} {p : RxPacket} (h : readPacket (f :: rest) = .ok p)
    (hlen : rest.length = 8) : p.flags = f := by
  match rest, hlen with
  | [b1, b2, b3, b4, b5, b6, b7, b8], _ =>
    rw [readPacket_nine] at h
    cases h
    rfl

/-- A `DECODE` that completes has admitted a packet, or has left the registers alone (R56). -/
theorem exec_decode_next {n : BitVec 8} {rx : List Byte} {s t : State} (h : exec (.decode n rx) s = .next t) :
    (∃ p, t = admitPacket p s) ∨ t = rejectPacket s := by
  rcases execDecode_cases n rx s with ⟨_, _, p, _, hx⟩ | ⟨_, hx⟩ | ⟨_, _, f, _, hx⟩
  · exact .inl ⟨p, Host.Outcome.next.inj (h.symm.trans hx)⟩
  · exact .inr (Host.Outcome.next.inj (h.symm.trans hx))
  · cases h.symm.trans hx

/-- Nine bytes with telemetry enabled are admitted, and the first of them is the flag byte (R56). -/
theorem exec_decode_admits {s : State} {f : Byte} {rest : List Byte} (hen : s.tlmEn = true) (hlen : rest.length = 8) :
    ∃ p, p.flags = f ∧ exec (.decode 9 (f :: rest)) s = .next (admitPacket p s) := by
  have hnine : (f :: rest).length = 9 := by rw [List.length_cons, hlen]
  obtain ⟨q, hq⟩ := readPacket_of_length hnine
  rcases execDecode_cases 9 (f :: rest) s with ⟨_, _, p, hp, hx⟩ | ⟨hno, _⟩ | ⟨_, _, e, he, _⟩
  · exact ⟨p, readPacket_flags hp hlen, hx⟩
  · exact absurd ⟨rfl, hen⟩ hno
  · rw [hq] at he
    cases he

/-- With telemetry disabled `DECODE` only answers `OK`, whatever its operand (R56, D21). -/
theorem exec_decode_of_disabled {s : State} (hdis : s.tlmEn = false) (n : BitVec 8) (rx : List Byte) :
    exec (.decode n rx) s = .next (s.respond .ok) := by
  rcases execDecode_cases n rx s with ⟨_, hen, _⟩ | ⟨_, hx⟩ | ⟨_, hen, _⟩
  · simp [hdis] at hen
  · rw [rejectPacket_eq, hdis] at hx
    exact hx
  · simp [hdis] at hen

theorem runInstrs_cons_of_next {i : Instr} {is : List Instr} {s t : State} (h : exec i s = .next t) :
    runInstrs (i :: is) s = runInstrs is t := by
  simp only [runInstrs, h]

/-- Two packets in a row, the second admitted to what the first has left: admission does not touch `TLM_EN`. -/
theorem runInstrs_two_packets {s : State} {f g : Byte} {rest rest' : List Byte} (hen : s.tlmEn = true)
    (hlen : rest.length = 8) (hlen' : rest'.length = 8) :
    ∃ p q, p.flags = f ∧ q.flags = g ∧
      runInstrs [.decode 9 (f :: rest), .decode 9 (g :: rest')] s = .next (admitPacket q (admitPacket p s)) := by
  obtain ⟨p, hpf, hp⟩ := exec_decode_admits (f := f) hen hlen
  obtain ⟨q, hqf, hq⟩ := exec_decode_admits (f := g) ((admitPacket_tlmEn p s).trans hen) hlen'
  refine ⟨p, q, hpf, hqf, ?_⟩
  rw [runInstrs_cons_of_next hp, runInstrs_cons_of_next hq, runInstrs]

/-! ### TLM_DIS, SETACC, GET -/

theorem exec_tlmDis (s : State) : exec .tlmDis s = .next ({ s with tlmEn := false }.respond .ok) := rfl

theorem exec_setacc (sel : Axis) (v : Word) (s : State) :
    exec (.setacc sel v) s = .next ({ s with ts := { s.ts with acc := s.ts.acc.set sel v } }.respond .ok) := rfl

theorem exec_get (fid : TlmField) (s : State) : exec (.get fid) s = .next (s.respond (.data (s.ts.field fid))) := rfl

/-- A boolean register is read out as 0 or 1 (R63, D14). -/
theorem boolWord_eq_ite (b : Bool) : boolWord b = if b then 1 else 0 := by
  cases b <;> rfl

theorem exec_get_armed (s : State) :
    exec (.get .armed) s = .next (s.respond (.data (if s.ts.armed then 1 else 0))) := by
  rw [← boolWord_eq_ite]
  exact exec_get .armed s

theorem exec_get_estop (s : State) :
    exec (.get .estop) s = .next (s.respond (.data (if s.ts.estop then 1 else 0))) := by
  rw [← boolWord_eq_ite]
  exact exec_get .estop s

/-- Writing the enable bit and answering touches no other register. -/
theorem tlmEn_update_unchanged (s : State) (b : Bool) (x : Response) :
    UnchangedExcept [.tlmEn] s ({ s with tlmEn := b }.respond x) := by
  refine unchangedExcept_of_fields (fun r hr => ?_) rfl rfl
  cases r with
  | tlmEn => exact absurd (List.mem_singleton.2 rfl) hr
  | _ => rfl

end Sys2Proof.Machine
end

section
/-! What the other instructions leave of the armed latch and of the two raw telemetry bits (R58, R59). Only `ENCODE` and
`SYNC` branch, on the mode; neither branch writes `CS` or `TS`. -/

namespace Sys2Proof.Machine

theorem exec_encode_keeps_cs_ts {s t : State} (h : exec .encode s = .next t) : t.cs = s.cs ∧ t.ts = s.ts := by
  cases h
  split
  · exact ⟨rfl, rfl⟩
  · exact ⟨rfl, rfl⟩

theorem exec_sync_keeps_cs_ts {s t : State} (h : exec .sync s = .next t) : t.cs = s.cs ∧ t.ts = s.ts := by
  cases h
  split
  · exact ⟨rfl, rfl⟩
  · exact ⟨rfl, rfl⟩

/-- A `DECODE` never moves the armed latch: the latch function of R58 returns the old value. -/
theorem exec_decode_keeps_cs_armed {n : BitVec 8} {rx : List Byte} {s t : State}
    (h : exec (.decode n rx) s = .next t) : t.cs.armed = s.cs.armed := by
  rcases exec_decode_next h with ⟨p, rfl⟩ | rfl
  · exact admitPacket_cs_armed p s
  · rw [rejectPacket_cs]

/-- Every instruction but `ARM` and `DISARM` keeps the armed latch (R58). -/
theorem exec_keeps_cs_armed {i : Instr} {s t : State} (h : exec i s = .next t) (harm : i ≠ .arm)
    (hdisarm : i ≠ .disarm) : t.cs.armed = s.cs.armed := by
  cases i with
  | arm => exact absurd rfl harm
  | disarm => exact absurd rfl hdisarm
  | decode n rx => exact exec_decode_keeps_cs_armed h
  | encode => rw [(exec_encode_keeps_cs_ts h).1]
  | sync => rw [(exec_sync_keeps_cs_ts h).1]
  | _ => cases h; rfl

/-- Every instruction but `DECODE` keeps the two raw bits (R59). -/
theorem exec_keeps_raw_bits {i : Instr} {s t : State} (h : exec i s = .next t) (hdec : ∀ n rx, i ≠ .decode n rx) :
    t.ts.armed = s.ts.armed ∧ t.ts.estop = s.ts.estop := by
  cases i with
  | decode n rx => exact absurd rfl (hdec n rx)
  | encode => rw [(exec_encode_keeps_cs_ts h).2]; exact ⟨rfl, rfl⟩
  | sync => rw [(exec_sync_keeps_cs_ts h).2]; exact ⟨rfl, rfl⟩
  | _ => cases h; exact ⟨rfl, rfl⟩

end Sys2Proof.Machine
end

section
/-! The obligations of spec/42_telemetry.md on the latches and the enable bit (R57 to R59, R61). -/

namespace Sys2Proof.Machine

/-- Settles O33: an admitted packet applies the latch function to bit 1 of its first byte, and the function is an OR. -/
theorem estopLatchIsAnOr : Obligations.EstopLatchIsAnOr := by
  refine ⟨fun old inp => ⟨rfl, estopLatchNext_eq_or old inp⟩, ?_, ?_⟩
  · intro s t f rest hen hlen h
    obtain ⟨p, rfl, hp⟩ := exec_decode_admits (f := f) hen hlen
    rw [hp] at h
    cases h
    exact admitPacket_cs_estop p s
  · intro s f g rest rest' hen hlen hlen' hf hg
    obtain ⟨p, q, rfl, rfl, hrun⟩ := runInstrs_two_packets (f := f) (g := g) hen hlen hlen'
    exact ⟨_, hrun, by simp [hf]⟩

/-- Settles O34: the armed latch function keeps the old value, so `DECODE` joins the instructions that keep the latch. -/
theorem armedLatchIgnoresTheWire : Obligations.ArmedLatchIgnoresTheWire := by
  refine ⟨fun old inp => ⟨rfl, armedLatchNext_eq_old old inp⟩, fun s t n rx h => exec_decode_keeps_cs_armed h, ?_, ?_⟩
  · intro s f rest hen hlen
    obtain ⟨p, rfl, hp⟩ := exec_decode_admits (f := f) hen hlen
    exact ⟨_, hp, admitPacket_cs_armed p s, admitPacket_ts_armed p s⟩
  · intro i s t h hchanged
    by_contra hother
    obtain ⟨harm, hdisarm⟩ := not_or.1 hother
    exact hchanged (exec_keeps_cs_armed h harm hdisarm)

/-- Settles O35: admission overwrites the raw bits without a look at the latches, `GET` reads them out, and no other
instruction writes them. -/
theorem rawBitsOverwriteWhateverTheLatchesHold : Obligations.RawBitsOverwriteWhateverTheLatchesHold := by
  refine ⟨?_, ?_, fun i s t hdec h => exec_keeps_raw_bits h hdec⟩
  · intro s f rest hen hlen
    obtain ⟨p, rfl, hp⟩ := exec_decode_admits (f := f) hen hlen
    exact ⟨_, _, _, hp, admitPacket_ts_armed p s, admitPacket_ts_estop p s, admitPacket_cs_armed p s,
      exec_get_armed _, rfl, exec_get_estop _, rfl⟩
  · intro s f g rest rest' hen hlen hlen' hf hg
    obtain ⟨p, q, rfl, rfl, hrun⟩ := runInstrs_two_packets (f := f) (g := g) hen hlen hlen'
    exact ⟨_, hrun, hg, by simp [hf]⟩

/-- Settles O37: after `TLM_DIS` the enable bit is down, so `DECODE` only answers, and neither `GET` nor `SETACC` looks at
that bit. -/
theorem tlmDisDetachesTheDecoder : Obligations.TlmDisDetachesTheDecoder := by
  refine ⟨by decide, fun s => ⟨_, exec_tlmDis s, rfl, rfl, tlmEn_update_unchanged s false .ok, ?_, ?_, ?_⟩⟩
  · intro n rx
    exact ⟨_, exec_decode_of_disabled rfl n rx, rfl, respond_unchanged _ .ok⟩
  · intro fid
    exact ⟨_, exec_get fid _, rfl⟩
  · intro sel v
    exact ⟨_, exec_setacc sel v _, rfl, axes_get_set_same s.ts.acc sel v⟩

end Sys2Proof.Machine
end

section
/-! `MalformedPacket` (R69): which operands of `DECODE` raise it, and that no presentable operand reads outside `RX`. -/

namespace Sys2Proof.Machine

/-- With telemetry enabled a length other than 9 only raises `MalformedPacket`. The right side does not mention the bytes:
none is read (R69). -/
theorem exec_decode_of_wrong_length {s : State} {n : BitVec 8} (hen : s.tlmEn = true) (hn : n ≠ 9) (rx : List Byte) :
    exec (.decode n rx) s = .next (s.respond (.error .malformedPacket)) := by
  rcases execDecode_cases n rx s with ⟨hnine, _⟩ | ⟨_, hx⟩ | ⟨hnine, _⟩
  · exact absurd hnine hn
  · rw [rejectPacket_eq, hen] at hx
    exact hx
  · exact absurd hnine hn

theorem exec_decode_of_nine_bytes {s : State} {rx : List Byte} (hen : s.tlmEn = true) (hlen : rx.length = 9) :
    ∃ p, exec (.decode 9 rx) s = .next (admitPacket p s) := by
  obtain ⟨f, rest, rfl⟩ := List.exists_cons_of_length_eq_add_one hlen
  obtain ⟨p, _, hp⟩ := exec_decode_admits (f := f) hen (Nat.succ.inj hlen)
  exact ⟨p, hp⟩

/-- Nine bytes, or a disabled decoder: `DECODE` answers `OK` (R56). -/
theorem exec_decode_answers_ok {s : State} {n : BitVec 8} {rx : List Byte} (hlen : rx.length = n.toNat)
    (hadm : n = 9 ∨ s.tlmEn = false) : ∃ t, exec (.decode n rx) s = .next t ∧ t.response = some .ok := by
  cases hen : s.tlmEn with
  | false => exact ⟨_, exec_decode_of_disabled hen n rx, respond_response s .ok⟩
  | true =>
    obtain rfl : n = 9 := hadm.resolve_right (by simp [hen])
    obtain ⟨p, hp⟩ := exec_decode_of_nine_bytes hen hlen
    exact ⟨_, hp, rfl⟩

/-- An operand of `rx_len` bytes makes no read fault (R69, R90). -/
theorem exec_decode_ne_fault {n : BitVec 8} {rx : List Byte} (hlen : rx.length = n.toNat) (s : State) (f : Fault) :
    exec (.decode n rx) s ≠ .fault f := by
  obtain ⟨t, ht⟩ := exec_next_of_wellFormed (.decode n rx) hlen s
  rw [ht]
  nofun

/-- Settles O32: a wrong length only raises the exception, every other presentable operand is answered with `OK`, and a
well-formed instruction never stops. -/
theorem wrongLengthIsMalformedAndNothingIsRead : Obligations.WrongLengthIsMalformedAndNothingIsRead := by
  refine ⟨?_, ?_, fun s n rx k hlen => exec_decode_ne_fault hlen s (.rxOutOfBounds k), rfl⟩
  · intro s n rx rx' hen hn
    have hstep := exec_decode_of_wrong_length hen hn
    exact ⟨(hstep rx).trans (hstep rx').symm, _, hstep rx, respond_response s _, respond_unchanged s _⟩
  · intro s n rx hlen hadm
    obtain ⟨t, ht, hok⟩ := exec_decode_answers_ok hlen hadm
    exact ⟨t, ht, by simp [hok]⟩

end Sys2Proof.Machine
end

section
/-! The step on a command (R85): the block is given the command without the agent's tag, so the step is the same for both
agents, and a command that decodes is executed. -/

namespace Sys2Proof.Machine

/-- Taking a command off the port drops the agent's tag (log entry 11). -/
theorem takeInput_command (s : State) (a : Agent) (c : Command) (rest : List Input) :
    takeInput { s with inputs := .command a c :: rest } = .command c rest := rfl

theorem step_command_agent_irrelevant (s : State) (a b : Agent) (c : Command) (rest : List Input) :
    step { s with inputs := .command a c :: rest } = step { s with inputs := .command b c :: rest } := by
  simp only [step, takeInput_command, State.accepted]

theorem step_command_of_decode_ok {c : Command} {i : Instr} (hdec : decode c = .ok i) (s : State) (a : Agent)
    (rest : List Input) : step { s with inputs := .command a c :: rest } = exec i (s.accepted rest) := by
  simp only [step, takeInput_command, hdec, State.accepted]

/-- Settles O11: the step sees the command without its tag, and runs the instruction the command decodes to. -/
theorem agentOfACommandMakesNoDifference : Obligations.AgentOfACommandMakesNoDifference := by
  intro s a b c rest
  constructor
  · exact step_command_agent_irrelevant s a b c rest
  · intro i hdec
    exact step_command_of_decode_ok hdec s a rest

end Sys2Proof.Machine
end

section
/-! The command encoding (R29 to R35): the code of an instruction selects its row, and a legal code is the code of the
instruction it decodes to. -/

namespace Sys2Proof.Machine

/-! ### The codes of the opcode map -/

theorem selectOp_baseCode (op : Op) : selectOp (baseCode op) = some op := by
  cases op <;> decide

theorem selectOp_setchCode (sel : Channel) : selectOp (baseCode .setch ||| sel.code.setWidth 8) = some .setch := by
  cases sel <;> decide

theorem selectOp_setaccCode (sel : Axis) : selectOp (baseCode .setacc ||| sel.code.setWidth 8) = some .setacc := by
  cases sel <;> decide

theorem selectOp_getCode (fid : TlmField) : selectOp (baseCode .get ||| fid.code.setWidth 8) = some .get := by
  cases fid <;> decide

theorem channel_ofCode_setchCode (sel : Channel) :
    Channel.ofCode ((baseCode .setch ||| sel.code.setWidth 8).extractLsb' 0 2) = sel := by
  cases sel <;> decide

theorem axis_ofCode_setaccCode (sel : Axis) :
    Axis.ofCode ((baseCode .setacc ||| sel.code.setWidth 8).extractLsb' 0 2) = some sel := by
  cases sel <;> decide

theorem field_ofCode_getCode (fid : TlmField) :
    TlmField.ofCode ((baseCode .get ||| fid.code.setWidth 8).extractLsb' 0 4) = some fid := by
  cases fid <;> decide

/-- The low half of a zero-extended HalfFloat is the HalfFloat (R29). -/
theorem extractLsb'_setWidth_half (h : Half) : (h.setWidth 32).extractLsb' 0 16 = h := by
  apply BitVec.eq_of_toNat_eq
  simp
  omega

/-! ### Decoding what has been encoded -/

theorem selectOp_encode (i : Instr) : selectOp (encode i).cmd = some (Instr.op i) := by
  cases i with
  | setch sel v => exact selectOp_setchCode sel
  | setacc sel v => exact selectOp_setaccCode sel
  | get fid => exact selectOp_getCode fid
  | _ => exact selectOp_baseCode _

theorem assemble_encode (i : Instr) : assemble (Instr.op i) (encode i) = .ok i := by
  cases i with
  | f16ToF32 h => simp only [Instr.op, assemble, encode, codeWithData, extractLsb'_setWidth_half]
  | setch sel v => simp only [Instr.op, assemble, encode, codeWithData, channel_ofCode_setchCode]
  | setacc sel v => simp only [Instr.op, assemble, encode, codeWithData, axis_ofCode_setaccCode]
  | get fid => simp only [Instr.op, assemble, encode, codeOnly, field_ofCode_getCode]
  | _ => rfl

theorem decode_of_selectOp {c : Command} {op : Op} (h : selectOp c.cmd = some op) : decode c = assemble op c := by
  simp only [decode, h]

theorem decode_encode (i : Instr) : decode (encode i) = .ok i :=
  (decode_of_selectOp (selectOp_encode i)).trans (assemble_encode i)

theorem encode_wellFormed (i : Instr) : Laws.EncodeFitsThePort.Statement i := by
  cases i with
  | decode n rx => exact Laws.EncodeFitsThePort.decode n rx
  | _ => exact fun _ => rfl

/-- Settles O1: the code of an instruction selects its own row, and the row's operand assembly reads every operand back. -/
theorem decodeOfEncodeIsTheInstruction : Obligations.DecodeOfEncodeIsTheInstruction :=
  fun i => ⟨decode_encode i, encode_wellFormed i⟩

/-! ### The code of what has been decoded -/

/-- A row without a selector has one code (R30). -/
theorem cmd_eq_baseCode : ∀ cmd : Byte, ∀ op ∈ selectOp cmd, op ∉ [.setch, .setacc, .get] → cmd = baseCode op := by
  decide +kernel

theorem setchCode_of_selectOp : ∀ cmd : Byte, selectOp cmd = some .setch →
    baseCode .setch ||| (Channel.ofCode (cmd.extractLsb' 0 2)).code.setWidth 8 = cmd := by
  decide +kernel

theorem setaccCode_of_selectOp : ∀ cmd : Byte, selectOp cmd = some .setacc →
    ∀ sel ∈ Axis.ofCode (cmd.extractLsb' 0 2), baseCode .setacc ||| sel.code.setWidth 8 = cmd := by
  decide +kernel

theorem getCode_of_selectOp : ∀ cmd : Byte, selectOp cmd = some .get →
    ∀ fid ∈ TlmField.ofCode (cmd.extractLsb' 0 4), baseCode .get ||| fid.code.setWidth 8 = cmd := by
  decide +kernel

/-- What a command that decodes has gone through: its code selects a row, and the row assembles the instruction. -/
theorem selectOp_of_decode_ok {c : Command} {i : Instr} (h : decode c = .ok i) :
    ∃ op, selectOp c.cmd = some op ∧ assemble op c = .ok i := by
  simp only [decode] at h
  split at h
  · next op hop => exact ⟨op, hop, h⟩
  · cases h

/-- Three rows have a selector, whose number is read back from the code; every other row has one code (R30). -/
theorem encode_cmd_of_decode_ok {c : Command} {i : Instr} (h : decode c = .ok i) : (encode i).cmd = c.cmd := by
  obtain ⟨op, hop, hi⟩ := selectOp_of_decode_ok h
  have hbase := cmd_eq_baseCode c.cmd op hop
  cases op with
  | setch =>
    cases hi
    exact setchCode_of_selectOp c.cmd hop
  | setacc =>
    simp only [assemble] at hi
    split at hi
    · next sel hsel => cases hi; exact setaccCode_of_selectOp c.cmd hop sel hsel
    · cases hi
  | get =>
    simp only [assemble] at hi
    split at hi
    · next fid hfid => cases hi; exact getCode_of_selectOp c.cmd hop fid hfid
    · cases hi
  | _ => cases hi; exact (hbase (by decide)).symm

theorem wellFormed_of_decode_ok {c : Command} {i : Instr} (h : decode c = .ok i) (hc : c.WellFormed) : i.WellFormed := by
  obtain ⟨op, -, hi⟩ := selectOp_of_decode_ok h
  cases op with
  | decode => cases hi; exact hc
  | setacc =>
    simp only [assemble] at hi
    split at hi <;> cases hi
    trivial
  | get =>
    simp only [assemble] at hi
    split at hi <;> cases hi
    trivial
  | _ => cases hi; trivial

/-- Settles O5: the row and the selector of the instruction are those of the command. -/
theorem decodedInstructionKeepsItsCode : Obligations.DecodedInstructionKeepsItsCode :=
  fun _ _ h => ⟨encode_cmd_of_decode_ok h, wellFormed_of_decode_ok h⟩

/-! ### What decoding looks at -/

/-- Operand assembly looks at the code and at the operands its format names, and at nothing else (R29, D35). -/
theorem assemble_congr {op : Op} {c d : Command} (hcmd : c.cmd = d.cmd)
    (hdin : op ∈ [.f32ToF16, .setch, .setacc] → c.din = d.din)
    (hhalf : op = .f16ToF32 → c.din.extractLsb' 0 16 = d.din.extractLsb' 0 16)
    (hrx : op = .decode → c.rxLen = d.rxLen ∧ c.rxData = d.rxData) : assemble op c = assemble op d := by
  cases op with
  | f32ToF16 => simp only [assemble, hdin (by decide)]
  | setch => simp only [assemble, hcmd, hdin (by decide)]
  | setacc => simp only [assemble, hcmd, hdin (by decide)]
  | f16ToF32 => simp only [assemble, hhalf rfl]
  | decode => simp only [assemble, hrx rfl]
  | get => simp only [assemble, hcmd]
  | _ => rfl

/-- Settles O6: equal codes select one row, whose operand assembly reads no operand but its own. -/
theorem unusedOperandsAreIgnored : Obligations.UnusedOperandsAreIgnored := by
  intro c d hcmd hdin hhalf hrx
  cases hop : selectOp c.cmd with
  | none => simp only [decode, ← hcmd, hop]
  | some op =>
    rw [hop] at hdin hhalf hrx
    rw [decode_of_selectOp hop, decode_of_selectOp (hcmd ▸ hop)]
    exact assemble_congr hcmd (fun h => hdin (by simpa using h)) (fun h => hhalf (congrArg some h))
      (fun h => hrx (congrArg some h))

/-! ### Illegal codes -/

/-- Only a missing row or a selector without a meaning rejects a command (R34): no operand does. -/
theorem decode_error_iff_codeOnly (c : Command) :
    (∃ e, decode c = .error e) ↔ (decode (codeOnly c.cmd)).isOk = false := by
  simp only [decode, codeOnly]
  split
  · next op _ =>
    cases op with
    | setacc => simp only [assemble]; split <;> simp [Except.isOk, Except.toBool]
    | get => simp only [assemble]; split <;> simp [Except.isOk, Except.toBool]
    | _ => simp [assemble, Except.isOk, Except.toBool]
  · simp [Except.isOk, Except.toBool]

/-- The list of R34, code by code. -/
theorem codeOnly_rejected_iff : ∀ cmd : Byte, (decode (codeOnly cmd)).isOk = false ↔
    (cmd.toNat = 0x00 ∨ (0x03 ≤ cmd.toNat ∧ cmd.toNat ≤ 0x0F) ∨ (0x17 ≤ cmd.toNat ∧ cmd.toNat ≤ 0x1F) ∨
     (0x24 ≤ cmd.toNat ∧ cmd.toNat ≤ 0x2F) ∨ (0x32 ≤ cmd.toNat ∧ cmd.toNat ≤ 0x3F) ∨
     (0x43 ≤ cmd.toNat ∧ cmd.toNat ≤ 0x4F) ∨ 0x5D ≤ cmd.toNat) := by
  decide +kernel

/-- Settles O4: whether a command is rejected is a question about its code alone, answered for each of the 256 codes. -/
theorem illegalCodesAreThoseListed : Obligations.IllegalCodesAreThoseListed :=
  fun c => (decode_error_iff_codeOnly c).trans (codeOnly_rejected_iff c.cmd)

/-- Settles O2: the twelve words are closed terms, so the decoder is run on them. -/
theorem wordsOfTheOpcodeMapDecode : Obligations.WordsOfTheOpcodeMapDecode := by
  unfold Obligations.WordsOfTheOpcodeMapDecode
  decide

theorem opcodeTable_rows_disjoint : ∀ cmd : Byte, (opcodeTable.filter (rowMatches cmd)).length ≤ 1 := by
  decide +kernel

theorem legal_words_count : ((List.range 256).filter fun w => (decodeTableWord 8 w).isSome).length = 31 := by
  decide +kernel

/-- Settles O3: every code is compared with every row, and every word decoded. -/
theorem opcodeMapIsUnambiguous : Obligations.OpcodeMapIsUnambiguous :=
  ⟨opcodeTable_rows_disjoint, legal_words_count⟩

end Sys2Proof.Machine
end

section
/-! The frame of every instruction (R15, W cells): what each leaves unchanged, once per instruction. The statements about
single instructions take their frames from here. -/

namespace Sys2Proof.Machine

/-! ### One equation per instruction -/

theorem exec_setch (sel : Channel) (v : Word) (s : State) :
    exec (.setch sel v) s = .next ({ s with cs := { s.cs with ch := s.cs.ch.set sel v } }.respond .ok) := rfl

theorem exec_arm (s : State) :
    exec .arm s =
      .next ({ s with cs := { s.cs with armed := true }, send := { s.send with arm := true } }.respond .ok) := rfl

theorem exec_disarm (s : State) :
    exec .disarm s =
      .next ({ s with cs := { s.cs with armed := false }, send := { s.send with disarm := true } }.respond .ok) := rfl

theorem exec_estop (s : State) :
    exec .estop s =
      .next ({ s with cs := { s.cs with estop := true }, send := { s.send with estop := true } }.respond .ok) := rfl

theorem exec_estopClr (s : State) :
    exec .estopClr s = .next ({ s with cs := { s.cs with estop := false } }.respond .ok) := rfl

theorem exec_tlmEn (s : State) : exec .tlmEn s = .next ({ s with tlmEn := true }.respond .ok) := rfl

theorem exec_encode_of_packet {s : State} (h : s.mode = .packet) : exec .encode s = .next (encodeState s) := by
  simp only [exec, execEncode, h, if_true]

theorem exec_encode_of_delta {s : State} (h : s.mode = .delta) :
    exec .encode s = .next (s.respond (.error .modeViolation)) := by
  simp [exec, execEncode, h]

theorem exec_sync_of_delta {s : State} (h : s.mode = .delta) : exec .sync s = .next (syncState s) := by
  simp only [exec, execSync, h, if_true]

theorem exec_sync_of_packet {s : State} (h : s.mode = .packet) :
    exec .sync s = .next (s.respond (.error .modeViolation)) := by
  simp [exec, execSync, h]

theorem exec_encode_next {s t : State} (h : exec .encode s = .next t) :
    (s.mode = .packet ∧ t = encodeState s) ∨ (s.mode = .delta ∧ t = s.respond (.error .modeViolation)) := by
  cases hm : s.mode with
  | packet => exact .inl ⟨rfl, Host.Outcome.next.inj (h.symm.trans (exec_encode_of_packet hm))⟩
  | delta => exact .inr ⟨rfl, Host.Outcome.next.inj (h.symm.trans (exec_encode_of_delta hm))⟩

theorem exec_sync_next {s t : State} (h : exec .sync s = .next t) :
    (s.mode = .delta ∧ t = syncState s) ∨ (s.mode = .packet ∧ t = s.respond (.error .modeViolation)) := by
  cases hm : s.mode with
  | delta => exact .inl ⟨rfl, Host.Outcome.next.inj (h.symm.trans (exec_sync_of_delta hm))⟩
  | packet => exact .inr ⟨rfl, Host.Outcome.next.inj (h.symm.trans (exec_sync_of_packet hm))⟩

/-! ### Frames -/

theorem UnchangedExcept.mono {l l' : List Reg} {s t : State} (h : UnchangedExcept l s t) (hl : l ⊆ l') :
    UnchangedExcept l' s t := by
  obtain ⟨hreg, hmem, hin⟩ := h
  exact ⟨fun r hr => hreg r fun hr' => hr (hl hr'), fun a ha => hmem a fun i hi hi' => ha i hi (hl hi'), hin⟩

theorem respond_unchangedExcept (l : List Reg) (s : State) (r : Response) : UnchangedExcept l s (s.respond r) :=
  (respond_unchanged s r).mono (List.nil_subset l)

theorem axis_set_field_other (ts : TelemetryState) {sel : Axis} {fid : TlmField} (v : Word) (h : fid ≠ axisField sel) :
    ({ ts with acc := ts.acc.set sel v } : TelemetryState).field fid = ts.field fid := by
  cases fid with
  | accX => exact axes_get_set_other (other := .accX) ts.acc v fun hsel => h (hsel ▸ rfl)
  | accY => exact axes_get_set_other (other := .accY) ts.acc v fun hsel => h (hsel ▸ rfl)
  | accZ => exact axes_get_set_other (other := .accZ) ts.acc v fun hsel => h (hsel ▸ rfl)
  | _ => rfl

theorem setch_frame (sel : Channel) (v : Word) (s : State) :
    UnchangedExcept [.csCh sel] s ({ s with cs := { s.cs with ch := s.cs.ch.set sel v } }.respond .ok) := by
  refine unchangedExcept_of_fields (fun r hr => ?_) rfl rfl
  cases r with
  | csCh other =>
    have hother : other ≠ sel := fun h => hr (h ▸ List.mem_singleton_self _)
    exact congrArg BitVec.toNat (channels_get_set_other s.cs.ch v hother)
  | _ => rfl

theorem setacc_frame (sel : Axis) (v : Word) (s : State) :
    UnchangedExcept [.ts (axisField sel)] s
      ({ s with ts := { s.ts with acc := s.ts.acc.set sel v } }.respond .ok) := by
  refine unchangedExcept_of_fields (fun r hr => ?_) rfl rfl
  cases r with
  | ts fid =>
    have hother : fid ≠ axisField sel := fun h => hr (h ▸ List.mem_singleton_self _)
    exact congrArg BitVec.toNat (axis_set_field_other s.ts v hother)
  | _ => rfl

theorem arm_frame (s : State) :
    UnchangedExcept [.csArmed, .sendArm] s
      ({ s with cs := { s.cs with armed := true }, send := { s.send with arm := true } }.respond .ok) := by
  refine unchangedExcept_of_fields (fun r hr => ?_) rfl rfl
  cases r with
  | csArmed => exact absurd (by decide) hr
  | sendArm => exact absurd (by decide) hr
  | _ => rfl

theorem disarm_frame (s : State) :
    UnchangedExcept [.csArmed, .sendDisarm] s
      ({ s with cs := { s.cs with armed := false }, send := { s.send with disarm := true } }.respond .ok) := by
  refine unchangedExcept_of_fields (fun r hr => ?_) rfl rfl
  cases r with
  | csArmed => exact absurd (by decide) hr
  | sendDisarm => exact absurd (by decide) hr
  | _ => rfl

theorem estop_frame (s : State) :
    UnchangedExcept [.csEstop, .sendEstop] s
      ({ s with cs := { s.cs with estop := true }, send := { s.send with estop := true } }.respond .ok) := by
  refine unchangedExcept_of_fields (fun r hr => ?_) rfl rfl
  cases r with
  | csEstop => exact absurd (by decide) hr
  | sendEstop => exact absurd (by decide) hr
  | _ => rfl

theorem estopClr_frame (s : State) :
    UnchangedExcept [.csEstop] s ({ s with cs := { s.cs with estop := false } }.respond .ok) := by
  refine unchangedExcept_of_fields (fun r hr => ?_) rfl rfl
  cases r with
  | csEstop => exact absurd (by decide) hr
  | _ => rfl

theorem txbuf_mem_txRegs (i : Fin 9) : Reg.txbuf i ∈ txRegs :=
  List.mem_map_of_mem (List.mem_finRange i)

/-- `ENCODE` writes bytes of `TX` only, and an address that does not exist reads as such before and after (R17, R55). -/
theorem encodeState_frame (s : State) : UnchangedExcept txRegs s (encodeState s) := by
  refine ⟨fun r hr => ?_, fun a ha => ?_, rfl⟩
  · cases r with
    | txbuf i => exact absurd (txbuf_mem_txRegs i) hr
    | _ => rfl
  · have hout : ¬a < txSize := fun hlt => ha ⟨a, hlt⟩ rfl (txbuf_mem_txRegs _)
    simp only [Memory.readByte, hout, if_false]

theorem syncState_frame (s : State) :
    UnchangedExcept (Channel.all.map .lsCh ++ [.sendArm, .sendDisarm, .sendEstop]) s (syncState s) := by
  refine unchangedExcept_of_fields (fun r hr => ?_) rfl rfl
  cases r with
  | lsCh sel => exact absurd (by cases sel <;> decide) hr
  | sendArm => exact absurd (by decide) hr
  | sendDisarm => exact absurd (by decide) hr
  | sendEstop => exact absurd (by decide) hr
  | _ => rfl

/-- A packet does not touch the acceleration: the only fields outside `packetFields` (R8, R56). -/
theorem takePacket_field_other (ts : TelemetryState) (p : RxPacket) {fid : TlmField} (h : fid ∉ packetFields) :
    (ts.takePacket p).field fid = ts.field fid := by
  cases fid with
  | accX => rfl
  | accY => rfl
  | accZ => rfl
  | _ => exact absurd (by decide) h

theorem admitPacket_frame (p : RxPacket) (s : State) :
    UnchangedExcept ([.csArmed, .csEstop] ++ packetFields.map .ts) s (admitPacket p s) := by
  refine unchangedExcept_of_fields (fun r hr => ?_) rfl rfl
  cases r with
  | csArmed => exact absurd (by decide) hr
  | csEstop => exact absurd (by decide) hr
  | ts fid =>
    have hfid : fid ∉ packetFields := fun h => hr (List.mem_append_right _ (List.mem_map_of_mem h))
    exact congrArg BitVec.toNat (takePacket_field_other s.ts p hfid)
  | _ => rfl

theorem rejectPacket_unchangedExcept (l : List Reg) (s : State) : UnchangedExcept l s (rejectPacket s) := by
  rw [rejectPacket_eq]
  exact respond_unchangedExcept l s _

/-- The access table R15 bounds what an instruction writes. -/
theorem exec_frame {i : Instr} {s t : State} (h : exec i s = .next t) : UnchangedExcept (writes i) s t := by
  cases i with
  | f32ToF16 x => cases h; exact respond_unchanged s _
  | f16ToF32 x => cases h; exact respond_unchanged s _
  | get fid => cases h; exact respond_unchanged s _
  | setch sel v => cases h; exact setch_frame sel v s
  | setacc sel v => cases h; exact setacc_frame sel v s
  | arm => cases h; exact arm_frame s
  | disarm => cases h; exact disarm_frame s
  | estop => cases h; exact estop_frame s
  | estopClr => cases h; exact estopClr_frame s
  | tlmEn => cases h; exact tlmEn_update_unchanged s true .ok
  | tlmDis => cases h; exact tlmEn_update_unchanged s false .ok
  | encode =>
    rcases exec_encode_next h with ⟨-, rfl⟩ | ⟨-, rfl⟩
    · exact encodeState_frame s
    · exact respond_unchangedExcept _ s _
  | sync =>
    rcases exec_sync_next h with ⟨-, rfl⟩ | ⟨-, rfl⟩
    · exact syncState_frame s
    · exact respond_unchangedExcept _ s _
  | decode n rx =>
    rcases exec_decode_next h with ⟨p, rfl⟩ | rfl
    · exact admitPacket_frame p s
    · exact rejectPacket_unchangedExcept _ s

theorem exec_keeps_reg {i : Instr} {s t : State} {r : Reg} (h : exec i s = .next t) (hr : r ∉ writes i) :
    t.readReg r = s.readReg r :=
  (exec_frame h).1 r hr

theorem exec_inputs {i : Instr} {s t : State} (h : exec i s = .next t) : t.inputs = s.inputs :=
  (exec_frame h).2.2

/-- Settles O45: the frame of every instruction is its row of the access table. -/
theorem onlyListedRegistersAreWritten : Obligations.OnlyListedRegistersAreWritten :=
  fun _ _ _ h => exec_frame h

/-! ### Statements about one instruction each -/

/-- Settles O23: the selected channel reads back, the frame is that of the access table. -/
theorem setchWritesOneChannel : Obligations.SetchWritesOneChannel :=
  fun sel v s => ⟨_, exec_setch sel v s, rfl, channels_get_set_same s.cs.ch sel v, exec_frame (exec_setch sel v s)⟩

/-- Settles O24: one equation gives the two bits, the frame the rest. -/
theorem armSetsLatchAndRequest : Obligations.ArmSetsLatchAndRequest :=
  fun s => ⟨_, exec_arm s, rfl, rfl, rfl, exec_frame (exec_arm s)⟩

/-- Settles O25: one equation gives the two bits, the frame the rest. -/
theorem disarmClearsLatchAndSetsRequest : Obligations.DisarmClearsLatchAndSetsRequest :=
  fun s => ⟨_, exec_disarm s, rfl, rfl, rfl, exec_frame (exec_disarm s)⟩

/-- Settles O26: one equation gives the two bits, the frame the rest. -/
theorem estopSetsLatchAndRequest : Obligations.EstopSetsLatchAndRequest :=
  fun s => ⟨_, exec_estop s, rfl, rfl, rfl, exec_frame (exec_estop s)⟩

/-- Settles O27: a pending request is outside the frame, so it stays. -/
theorem estopClrClearsOnlyTheLatch : Obligations.EstopClrClearsOnlyTheLatch :=
  fun s => ⟨_, exec_estopClr s, rfl, rfl, exec_frame (exec_estopClr s)⟩

/-- Settles O36: `TS` is outside the frame, so it stays. -/
theorem tlmEnSetsOnlyTheEnable : Obligations.TlmEnSetsOnlyTheEnable :=
  fun s => ⟨_, exec_tlmEn s, rfl, rfl, exec_frame (exec_tlmEn s)⟩

/-- Settles O38: the selected axis reads back. -/
theorem setaccWritesOneAxis : Obligations.SetaccWritesOneAxis :=
  fun sel v s => ⟨_, exec_setacc sel v s, rfl, axes_get_set_same s.ts.acc sel v, exec_frame (exec_setacc sel v s)⟩

theorem field_eq_fieldOfRule (ts : TelemetryState) (fid : TlmField) : ts.field fid = fieldOfRule ts fid := by
  cases fid with
  | armed => exact boolWord_eq_ite ts.armed
  | estop => exact boolWord_eq_ite ts.estop
  | crashed => exact boolWord_eq_ite ts.crashed
  | charging => exact boolWord_eq_ite ts.charging
  | charged => exact boolWord_eq_ite ts.charged
  | lowBattery => exact boolWord_eq_ite ts.lowBattery
  | _ => rfl

/-- Settles O39: the read-out is the table of R63, and `GET` only answers. -/
theorem getReturnsTheField : Obligations.GetReturnsTheField := by
  intro fid s
  refine ⟨_, exec_get fid s, ?_, exec_frame (exec_get fid s)⟩
  rw [respond_response, field_eq_fieldOfRule]

/-- Settles O29: in the other mode both operations only answer. -/
theorem otherModesSendIsRefused : Obligations.OtherModesSendIsRefused :=
  fun s => ⟨fun hm => ⟨_, exec_encode_of_delta hm, rfl, respond_unchanged s _⟩,
    fun hm => ⟨_, exec_sync_of_packet hm, rfl, respond_unchanged s _⟩, rfl⟩

/-- Settles O31: with the enable bit down `DECODE` only answers `OK`. -/
theorem decodeIsInertWhenDisabled : Obligations.DecodeIsInertWhenDisabled :=
  fun s n rx hdis => ⟨_, exec_decode_of_disabled hdis n rx, rfl, respond_unchanged s .ok⟩

end Sys2Proof.Machine
end

section
/-! The two packets (R18, R39, R55, R56): what `ENCODE` lays out, what `DECODE` takes apart, and the way round. -/

namespace Sys2Proof.Machine

/-! ### Bytes of a HalfFloat -/

theorem extractLsb'_high (h : Half) : h.extractLsb' 8 8 = highByte h := by
  apply BitVec.eq_of_toNat_eq
  simp [highByte, Nat.shiftRight_eq_div_pow]

theorem extractLsb'_low (h : Half) : h.extractLsb' 0 8 = lowByte h := by
  apply BitVec.eq_of_toNat_eq
  simp [lowByte]

theorem concatBytes_eq_halfOfBytes (hi lo : Byte) : concatBytes hi lo = halfOfBytes hi lo := by
  apply BitVec.eq_of_toNat_eq
  have hhi := hi.isLt
  have hlo := lo.isLt
  rw [concatBytes_toNat, halfOfBytes, BitVec.toNat_ofNat, Nat.mod_eq_of_lt (by omega)]

theorem concatBytes_high_low (h : Half) : concatBytes (highByte h) (lowByte h) = h := by
  rw [← extractLsb'_high, ← extractLsb'_low, concatBytes_split]

/-! ### The memory primitives -/

theorem memRead8_of_getElem? {rx : List Byte} {i : Nat} {b : Byte} (h : rx[i]? = some b) : memRead8 rx i = .ok b := by
  simp only [memRead8, h]

theorem memRead16_of_getElem? {rx : List Byte} {i : Nat} {hi lo : Byte} (hhi : rx[i]? = some hi)
    (hlo : rx[i + 1]? = some lo) : memRead16 rx i = .ok (halfOfBytes hi lo) := by
  simp only [memRead16, memRead8_of_getElem? hhi, memRead8_of_getElem? hlo, concatBytes_eq_halfOfBytes]

theorem readByte_memWrite8 {m : Memory} (hm : Memory.wf m = true) (i : Fin 9) (v : Byte) (a : Nat) :
    Memory.readByte (memWrite8 m i v) a = if a = i.val then some v else Memory.readByte m a := by
  simp only [Memory.readByte, (memWrite8_spec hm i v).2]
  by_cases hai : a = i.val
  · have hin : i.val < txSize := i.isLt
    simp [hai, hin]
  · simp [hai]

theorem readByte_memWrite16 {m : Memory} (hm : Memory.wf m = true) (i : Fin 8) (v : Half) (a : Nat) :
    Memory.readByte (memWrite16 m i v) a =
      if a = i.val then some (highByte v) else if a = i.val + 1 then some (lowByte v) else Memory.readByte m a := by
  have hin : i.val < txSize ∧ i.val + 1 < txSize := by
    have := i.isLt
    simp only [txSize]
    omega
  simp only [Memory.readByte, (memWrite16_spec hm i v).2, extractLsb'_high, extractLsb'_low]
  by_cases hai : a = i.val
  · simp [hai, hin]
  · by_cases hai' : a = i.val + 1 <;> simp [hai, hai', hin]

/-- Settles O55: reads by the bytes the operand holds, writes by the read-over-write laws of `TX`. -/
theorem memoryPrimitivesAreBigEndian : Obligations.MemoryPrimitivesAreBigEndian :=
  ⟨fun _ _ _ => memRead8_of_getElem?, fun _ _ _ _ => memRead16_of_getElem?,
    fun _ i v a hm => ⟨(memWrite8_spec hm i v).1, readByte_memWrite8 hm i v a⟩,
    fun _ i v a hm => ⟨(memWrite16_spec hm i v).1, readByte_memWrite16 hm i v a⟩⟩

/-! ### ENCODE -/

/-- The nine bytes of `TX` after the five writes are the nine bytes of R55. -/
theorem encodePacket_bytes (cs : ControlState) {m : Memory} (hm : Memory.wf m = true) :
    Memory.bytes (encodePacket cs m) = controlPacketOfRule cs := by
  have hrange : List.range txSize = [0, 1, 2, 3, 4, 5, 6, 7, 8] := rfl
  simp [Memory.bytes, hrange, encodePacket_byteAt cs hm, controlPacketOfRule, extractLsb'_high, extractLsb'_low,
    controlFlags_eq]

theorem readByte_eq_bytes_getElem? (m : Memory) (a : Nat) : Memory.readByte m a = (Memory.bytes m)[a]? := by
  by_cases ha : a < txSize <;> simp [Memory.readByte, Memory.bytes, ha]

theorem encodeState_txbuf (s : State) : (encodeState s).txbuf = encodePacket s.cs s.txbuf := rfl

theorem encodeState_response {s : State} (hm : Memory.wf s.txbuf = true) :
    (encodeState s).response = some (.packet (controlPacketOfRule s.cs)) := by
  rw [← encodePacket_bytes s.cs hm]
  rfl

/-- Settles O28: the five writes cover `TX`, so its nine bytes, read or returned, are those of R55. -/
theorem encodePacksTheControlState : Obligations.EncodePacksTheControlState := by
  intro s hmode hm
  have hexec := exec_encode_of_packet hmode
  refine ⟨_, hexec, encodeState_response hm, fun a => ?_, exec_frame hexec⟩
  rw [readByte_eq_bytes_getElem?, encodeState_txbuf, encodePacket_bytes s.cs hm]

/-! ### DECODE -/

theorem exec_decode_of_admitted {n : BitVec 8} {rx : List Byte} {p : RxPacket} {s : State} (hn : n = 9)
    (hen : s.tlmEn = true) (hp : readPacket rx = .ok p) : exec (.decode n rx) s = .next (admitPacket p s) := by
  rcases execDecode_cases n rx s with ⟨_, _, q, hq, hx⟩ | ⟨hno, _⟩ | ⟨_, _, e, he, _⟩
  · cases hp.symm.trans hq
    exact hx
  · exact absurd ⟨hn, hen⟩ hno
  · cases hp.symm.trans he

/-- `DECODE` of nine bytes with telemetry enabled: the packet that is admitted (R56). -/
theorem exec_decode_nine {s : State} (hen : s.tlmEn = true) (f b1 b2 b3 b4 b5 b6 b7 b8 : Byte) :
    exec (.decode 9 [f, b1, b2, b3, b4, b5, b6, b7, b8]) s =
      .next (admitPacket ⟨f, concatBytes b1 b2, concatBytes b3 b4, concatBytes b5 b6, concatBytes b7 b8⟩ s) :=
  exec_decode_of_admitted rfl hen (readPacket_nine f b1 b2 b3 b4 b5 b6 b7 b8)

/-- Settles O30: the admitted packet holds the nine bytes, and its frame is that of the access table. -/
theorem decodeUpdatesTelemetryAndLatches : Obligations.DecodeUpdatesTelemetryAndLatches := by
  intro s f b1 b2 b3 b4 b5 b6 b7 b8 hen
  have hexec := exec_decode_nine hen f b1 b2 b3 b4 b5 b6 b7 b8
  simp only [concatBytes_eq_halfOfBytes] at hexec
  exact ⟨_, hexec, rfl, rfl, rfl, rfl, rfl, rfl, rfl, rfl, rfl, rfl, rfl,
    (admitPacket_cs_estop _ s).trans (estopLatchNext_eq_or _ _), admitPacket_cs_armed _ s, exec_frame hexec⟩

/-! ### The way round -/

/-- The flag byte of a sent packet holds the two latches in bits 0 and 1, and clear status bits (R55). -/
theorem controlFlags_bits (cs : ControlState) :
    (controlFlags cs).getLsbD 0 = cs.armed ∧ (controlFlags cs).getLsbD 1 = cs.estop ∧
    (controlFlags cs).getLsbD 2 = false ∧ (controlFlags cs).getLsbD 3 = false ∧
    (controlFlags cs).getLsbD 4 = false ∧ (controlFlags cs).getLsbD 5 = false := by
  unfold controlFlags
  cases cs.armed <;> cases cs.estop <;> decide

/-- The packet that `ENCODE` lays out, as `DECODE` takes it apart. -/
def sentPacket (cs : ControlState) : RxPacket where
  flags := controlFlags cs
  throttle := f32ToF16 cs.ch.throttle
  pitch := f32ToF16 cs.ch.pitch
  roll := f32ToF16 cs.ch.roll
  yaw := f32ToF16 cs.ch.yaw

theorem exec_decode_controlPacket {s : State} (hen : s.tlmEn = true) (cs : ControlState) :
    exec (.decode 9 (controlPacketOfRule cs)) s = .next (admitPacket (sentPacket cs) s) := by
  rw [controlPacketOfRule, exec_decode_nine hen]
  simp only [concatBytes_high_low, ← controlFlags_eq, sentPacket]

/-- Receiving one's own packet moves neither latch (R57, R58). -/
theorem mergeLatches_sentPacket (cs : ControlState) : cs.mergeLatches (sentPacket cs) = cs := by
  obtain ⟨-, hestop, -⟩ := controlFlags_bits cs
  simp only [ControlState.mergeLatches, sentPacket, hestop, estopLatchNext_eq_or, Bool.or_self, armedLatchNext_eq_old]

theorem takePacket_sentPacket_channel (ts : TelemetryState) (cs : ControlState) (sel : Channel) :
    (ts.takePacket (sentPacket cs)).ch.get sel = f16ToF32 (f32ToF16 (cs.ch.get sel)) := by
  cases sel <;> simp only [TelemetryState.takePacket, sentPacket, Channels.get]

/-- Settles O56: the nine bytes sent are taken apart into the packet they were laid out from. -/
theorem loopBackGivesTheRoundedControlState : Obligations.LoopBackGivesTheRoundedControlState := by
  intro s hmode hen hm
  obtain ⟨harmed, hestop, hcrashed, hcharging, hcharged, hlow⟩ := controlFlags_bits s.cs
  exact ⟨_, _, _, exec_encode_of_packet hmode, encodeState_response hm,
    exec_decode_controlPacket (s := encodeState s) hen s.cs, mergeLatches_sentPacket s.cs, harmed, hestop, hcrashed,
    hcharging, hcharged, hlow, rfl, takePacket_sentPacket_channel s.ts s.cs⟩

end Sys2Proof.Machine
end

section
/-! The registers as the whole state (R5 to R14): their contents fit their widths and determine the fields, and with
canonical memory the state. What an instruction does to `MODE` and `TLM_EN` follows from its frame. -/

namespace Sys2Proof.Machine

/-! ### From contents to fields -/

theorem bool_eq_of_toNat_eq {a b : Bool} (h : a.toNat = b.toNat) : a = b := by
  revert h
  cases a <;> cases b <;> decide

theorem mode_eq_of_readReg {s t : State} (h : s.readReg .mode = t.readReg .mode) : s.mode = t.mode := by
  have hbit : TxMode.bit s.mode = TxMode.bit t.mode := bool_eq_of_toNat_eq h
  revert hbit
  cases s.mode <;> cases t.mode <;> decide

theorem tlmEn_eq_of_readReg {s t : State} (h : s.readReg .tlmEn = t.readReg .tlmEn) : s.tlmEn = t.tlmEn :=
  bool_eq_of_toNat_eq h

theorem csArmed_eq_of_readReg {s t : State} (h : s.readReg .csArmed = t.readReg .csArmed) : s.cs.armed = t.cs.armed :=
  bool_eq_of_toNat_eq h

theorem csEstop_eq_of_readReg {s t : State} (h : s.readReg .csEstop = t.readReg .csEstop) : s.cs.estop = t.cs.estop :=
  bool_eq_of_toNat_eq h

theorem csCh_eq_of_readReg {s t : State} (h : ∀ sel, s.readReg (.csCh sel) = t.readReg (.csCh sel)) :
    s.cs.ch = t.cs.ch :=
  channels_ext fun sel => BitVec.eq_of_toNat_eq (h sel)

theorem ls_eq_of_readReg {s t : State} (h : ∀ sel, s.readReg (.lsCh sel) = t.readReg (.lsCh sel)) : s.ls = t.ls :=
  channels_ext fun sel => BitVec.eq_of_toNat_eq (h sel)

theorem field_eq_of_readReg {s t : State} {fid : TlmField} (h : s.readReg (.ts fid) = t.readReg (.ts fid)) :
    s.ts.field fid = t.ts.field fid :=
  BitVec.eq_of_toNat_eq h

theorem cs_eq_of_readReg {s t : State} (harmed : s.readReg .csArmed = t.readReg .csArmed)
    (hestop : s.readReg .csEstop = t.readReg .csEstop)
    (hch : ∀ sel, s.readReg (.csCh sel) = t.readReg (.csCh sel)) : s.cs = t.cs := by
  have h1 := csArmed_eq_of_readReg harmed
  have h2 := csEstop_eq_of_readReg hestop
  have h3 := csCh_eq_of_readReg hch
  cases hs : s.cs
  cases ht : t.cs
  simp_all

theorem send_eq_of_readReg {s t : State} (harm : s.readReg .sendArm = t.readReg .sendArm)
    (hdisarm : s.readReg .sendDisarm = t.readReg .sendDisarm)
    (hestop : s.readReg .sendEstop = t.readReg .sendEstop) : s.send = t.send := by
  have h1 : s.send.arm = t.send.arm := bool_eq_of_toNat_eq harm
  have h2 : s.send.disarm = t.send.disarm := bool_eq_of_toNat_eq hdisarm
  have h3 : s.send.estop = t.send.estop := bool_eq_of_toNat_eq hestop
  cases hs : s.send
  cases ht : t.send
  simp_all

theorem boolWord_injective {a b : Bool} (h : boolWord a = boolWord b) : a = b := by
  have hn := congrArg BitVec.toNat h
  rw [boolWord_toNat, boolWord_toNat] at hn
  exact bool_eq_of_toNat_eq hn

theorem axes_ext {α : Type} {a b : Axes α} (h : ∀ sel, a.get sel = b.get sel) : a = b := by
  obtain ⟨a0, a1, a2⟩ := a
  obtain ⟨b0, b1, b2⟩ := b
  obtain rfl : a0 = b0 := h .accX
  obtain rfl : a1 = b1 := h .accY
  obtain rfl : a2 = b2 := h .accZ
  rfl

/-- The channel registers are fields 0 and 2 to 4 of the read-out (R33). -/
def channelField : Channel → TlmField
  | .throttle => .throttle
  | .pitch => .pitch
  | .roll => .roll
  | .yaw => .yaw

theorem field_channelField (ts : TelemetryState) (sel : Channel) : ts.field (channelField sel) = ts.ch.get sel := by
  cases sel <;> rfl

/-- The thirteen fields of the read-out are all of `TS` (R8, R33). -/
theorem telemetry_ext {a b : TelemetryState} (h : ∀ fid, a.field fid = b.field fid) : a = b := by
  have hch : a.ch = b.ch := channels_ext fun sel => by simpa only [field_channelField] using h (channelField sel)
  have hacc : a.acc = b.acc := axes_ext fun sel => by simpa only [field_axisField] using h (axisField sel)
  have harmed : a.armed = b.armed := boolWord_injective (h .armed)
  have hestop : a.estop = b.estop := boolWord_injective (h .estop)
  have hcrashed : a.crashed = b.crashed := boolWord_injective (h .crashed)
  have hcharging : a.charging = b.charging := boolWord_injective (h .charging)
  have hcharged : a.charged = b.charged := boolWord_injective (h .charged)
  have hlow : a.lowBattery = b.lowBattery := boolWord_injective (h .lowBattery)
  cases a
  cases b
  simp_all

/-- Settles O54: each field is determined by its registers, `TXBUF` because its form is canonical. -/
theorem registersAreTheWholeState : Obligations.RegistersAreTheWholeState := by
  intro s t hs ht hreg hinputs hresponse
  have hcs := cs_eq_of_readReg (hreg .csArmed) (hreg .csEstop) fun sel => hreg (.csCh sel)
  have hls := ls_eq_of_readReg fun sel => hreg (.lsCh sel)
  have hsend := send_eq_of_readReg (hreg .sendArm) (hreg .sendDisarm) (hreg .sendEstop)
  have hts : s.ts = t.ts := telemetry_ext fun fid => field_eq_of_readReg (hreg (.ts fid))
  have htxbuf : s.txbuf = t.txbuf := memory_ext hs ht fun i => BitVec.eq_of_toNat_eq (hreg (.txbuf i))
  have hmode := mode_eq_of_readReg (hreg .mode)
  have htlmEn := tlmEn_eq_of_readReg (hreg .tlmEn)
  cases s
  cases t
  simp_all

/-! ### Widths -/

theorem field_lt_width (ts : TelemetryState) (fid : TlmField) : (ts.field fid).toNat < 2 ^ (Reg.ts fid).width := by
  have hbool : ∀ b : Bool, (boolWord b).toNat < 2 ^ 1 := fun b => by
    rw [boolWord_toNat]
    exact Bool.toNat_lt b
  cases fid with
  | armed => exact hbool ts.armed
  | estop => exact hbool ts.estop
  | crashed => exact hbool ts.crashed
  | charging => exact hbool ts.charging
  | charged => exact hbool ts.charged
  | lowBattery => exact hbool ts.lowBattery
  | _ => exact BitVec.isLt _

theorem readReg_lt_width (s : State) (r : Reg) : s.readReg r < 2 ^ r.width := by
  cases r with
  | csCh sel => exact BitVec.isLt _
  | lsCh sel => exact BitVec.isLt _
  | ts fid => exact field_lt_width s.ts fid
  | txbuf i => exact BitVec.isLt _
  | _ => exact Bool.toNat_lt _

theorem count_all_eq_one (r : Reg) : Reg.all.count r = 1 := by
  cases r with
  | csCh sel => cases sel <;> decide
  | lsCh sel => cases sel <;> decide
  | ts fid => cases fid <;> decide
  | txbuf i => revert i; decide
  | _ => decide

/-- Settles O53: the widths are added up, each register is counted, and each content is a bit or a word. -/
theorem stateIs565Bits : Obligations.StateIs565Bits :=
  ⟨by decide, count_all_eq_one, readReg_lt_width⟩

/-! ### MODE and TLM_EN -/

theorem mode_not_mem_writes (i : Instr) : Reg.mode ∉ writes i := by
  cases i with
  | setacc sel v => cases sel <;> simp [writes]
  | _ => simp [writes, txRegs, Channel.all, packetFields]

/-- No instruction changes `MODE` (R10, R67). -/
theorem exec_mode {i : Instr} {s t : State} (h : exec i s = .next t) : t.mode = s.mode :=
  mode_eq_of_readReg (exec_keeps_reg h (mode_not_mem_writes i))

theorem tlmEn_not_mem_writes {i : Instr} (hen : i ≠ .tlmEn) (hdis : i ≠ .tlmDis) : Reg.tlmEn ∉ writes i := by
  cases i with
  | tlmEn => exact absurd rfl hen
  | tlmDis => exact absurd rfl hdis
  | setacc sel v => cases sel <;> simp [writes]
  | _ => simp [writes, txRegs, Channel.all, packetFields]

/-- Only `TLM_EN` and `TLM_DIS` change the enable bit (R60, R61). -/
theorem exec_tlmEn_eq {i : Instr} {s t : State} (h : exec i s = .next t) (hen : i ≠ .tlmEn) (hdis : i ≠ .tlmDis) :
    t.tlmEn = s.tlmEn :=
  tlmEn_eq_of_readReg (exec_keeps_reg h (tlmEn_not_mem_writes hen hdis))

end Sys2Proof.Machine
end

section
/-! The synchronizer (R40, R64 to R66): what a `SYNC` reports, and what the one-shot flags record between two of them. -/

namespace Sys2Proof.Machine

theorem syncState_response (s : State) :
    (syncState s).response = some (.actions (actionSet s.send s.cs.ch s.ls)) := rfl

theorem syncState_sends_nothing_more (s : State) :
    (syncState s).send.arm = false ∧ (syncState s).send.disarm = false ∧ (syncState s).send.estop = false :=
  ⟨rfl, rfl, rfl⟩

/-- The channel bits of the mask are the comparisons with the snapshot (R64). -/
theorem actionSet_mask_channel (send : SendFlags) (cs ls : Channels Word) (sel : Channel) :
    (actionSet send cs ls).mask.getLsbD (3 + sel.code.toNat) = fneq (cs.get sel) (ls.get sel) := by
  obtain ⟨-, -, -, hchannels⟩ := actionMask_bits send (changedChannels cs ls)
  exact (hchannels sel).trans (changedChannels_get cs ls sel)

/-- The three low bits of the mask are the one-shot flags (R64). -/
theorem actionSet_mask_requests (send : SendFlags) (cs ls : Channels Word) :
    (actionSet send cs ls).mask.getLsbD 0 = send.arm ∧ (actionSet send cs ls).mask.getLsbD 1 = send.disarm ∧
    (actionSet send cs ls).mask.getLsbD 2 = send.estop := by
  obtain ⟨harm, hdisarm, hestop, -⟩ := actionMask_bits send (changedChannels cs ls)
  exact ⟨harm, hdisarm, hestop⟩

/-- A value is reported exactly where its mask bit is 1 (R40). -/
theorem actionSet_val_isSome (send : SendFlags) (cs ls : Channels Word) (sel : Channel) :
    ((actionSet send cs ls).val.get sel).isSome = (actionSet send cs ls).mask.getLsbD (3 + sel.code.toNat) := by
  rw [actionSet_mask_channel, actionSet_val_get, valueWhen]
  split <;> simp_all

/-- Settles O40: the action set is read off the state before the `SYNC`; in packet mode it only answers. -/
theorem syncReportsAndTakesTheSnapshot : Obligations.SyncReportsAndTakesTheSnapshot := by
  refine ⟨by decide, fun s => ⟨fun hmode => ?_, fun hmode => ?_⟩⟩
  · have hexec := exec_sync_of_delta hmode
    obtain ⟨harm, hdisarm, hestop⟩ := actionSet_mask_requests s.send s.cs.ch s.ls
    exact ⟨_, _, hexec, syncState_response s, harm, hdisarm, hestop,
      fun sel => ⟨actionSet_mask_channel s.send s.cs.ch s.ls sel, actionSet_val_get s.send s.cs.ch s.ls sel⟩,
      rfl, rfl, rfl, rfl, exec_frame hexec⟩
  · exact ⟨_, exec_sync_of_packet hmode, rfl, respond_unchanged s _⟩

/-- After a `SYNC` the snapshot is the channels and no flag is pending, so another one writes what is there. -/
theorem syncState_syncState_sameRegs (s : State) : SameRegs (syncState s) (syncState (syncState s)) :=
  fun r => readReg_congr r rfl rfl rfl rfl rfl rfl rfl

/-- Settles O42: each channel is compared with itself, and only a NaN differs from itself. -/
theorem secondSyncSendsOnlyNans : Obligations.SecondSyncSendsOnlyNans := by
  intro s hmode
  have hmode' : (syncState s).mode = .delta := hmode
  obtain ⟨harm, hdisarm, hestop⟩ := actionSet_mask_requests (syncState s).send (syncState s).cs.ch (syncState s).ls
  refine ⟨_, _, _, exec_sync_of_delta hmode, exec_sync_of_delta hmode', syncState_response _, harm, hdisarm, hestop,
    fun sel => ?_, syncState_syncState_sameRegs s⟩
  exact (actionSet_mask_channel _ _ _ sel).trans (fneq_self (s.cs.ch.get sel))

/-! ### Requests over a run -/

theorem runInstrs_append (is js : List Instr) {s t : State} (h : runInstrs is s = .next t) :
    runInstrs (is ++ js) s = runInstrs js t := by
  induction is generalizing s with
  | nil => cases h; rfl
  | cons i rest ih =>
    simp only [runInstrs] at h
    simp only [List.cons_append, runInstrs]
    split at h
    · next u _ => exact ih h
    · cases h
    · cases h

/-- The requests pending after an instruction, given those before it: `ARM`, `DISARM` and `ESTOP` add theirs. -/
def SendFlags.after (f : SendFlags) (i : Instr) : SendFlags where
  arm := f.arm || decide (i = .arm)
  disarm := f.disarm || decide (i = .disarm)
  estop := f.estop || decide (i = .estop)

/-- Every instruction but `SYNC` adds its own request and takes none away (R51 to R54). -/
theorem exec_send {i : Instr} {s t : State} (h : exec i s = .next t) (hi : i ≠ .sync) : t.send = s.send.after i := by
  cases i with
  | sync => exact absurd rfl hi
  | encode =>
    rcases exec_encode_next h with ⟨-, rfl⟩ | ⟨-, rfl⟩
    · simp [SendFlags.after, encodeState]
    · simp [SendFlags.after]
  | decode n rx =>
    rcases exec_decode_next h with ⟨p, rfl⟩ | rfl
    · simp [SendFlags.after, admitPacket]
    · simp [SendFlags.after, rejectPacket_eq]
  | _ => cases h; simp [SendFlags.after]

/-- Over a run without `SYNC` each flag records whether its operation was in it. -/
theorem runInstrs_send {is : List Instr} {s : State} (his : ∀ i ∈ is, i.WellFormed ∧ i ≠ .sync) :
    ∃ t, runInstrs is s = .next t ∧ t.mode = s.mode ∧ t.send.arm = (s.send.arm || decide (.arm ∈ is)) ∧
      t.send.disarm = (s.send.disarm || decide (.disarm ∈ is)) ∧
      t.send.estop = (s.send.estop || decide (.estop ∈ is)) := by
  induction is generalizing s with
  | nil => exact ⟨s, rfl, rfl, by simp, by simp, by simp⟩
  | cons i rest ih =>
    obtain ⟨⟨hwf, hi⟩, hrest⟩ := List.forall_mem_cons.1 his
    obtain ⟨u, hu⟩ := exec_next_of_wellFormed i hwf s
    obtain ⟨t, ht, hmode, harm, hdisarm, hestop⟩ := ih (s := u) hrest
    rw [exec_send hu hi] at harm hdisarm hestop
    refine ⟨t, (runInstrs_cons_of_next hu).trans ht, hmode.trans (exec_mode hu), ?_, ?_, ?_⟩
    · simp [harm, SendFlags.after, Bool.or_assoc, eq_comm]
    · simp [hdisarm, SendFlags.after, Bool.or_assoc, eq_comm]
    · simp [hestop, SendFlags.after, Bool.or_assoc, eq_comm]

/-- Settles O43: the run leaves in each flag what the closing `SYNC` reports and clears. -/
theorem oneShotRequestsAreReportedOnce : Obligations.OneShotRequestsAreReportedOnce := by
  intro is s hmode his
  obtain ⟨t, ht, hmode', harm, hdisarm, hestop⟩ := runInstrs_send (s := s) his
  obtain ⟨harm', hdisarm', hestop'⟩ := actionSet_mask_requests t.send t.cs.ch t.ls
  refine ⟨syncState t, _, ?_, syncState_response t, harm'.trans harm, hdisarm'.trans hdisarm, hestop'.trans hestop,
    syncState_sends_nothing_more t⟩
  rw [runInstrs_append is [.sync] ht, runInstrs_cons_of_next (exec_sync_of_delta (hmode'.trans hmode)), runInstrs]

end Sys2Proof.Machine
end

section
/-! Reset and the idle step (R16, R81, R90), and the step on a command, legal or illegal (R28, R70). -/

namespace Sys2Proof.Machine

/-! ### One equation per kind of input -/

theorem step_of_no_input {s : State} (hin : s.inputs = []) : step s = .next (idleStep s) := by
  simp only [step, takeInput, hin]

theorem step_of_reset {s : State} {m : TxMode} {e : Bool} {rest : List Input} (hin : s.inputs = .reset m e :: rest) :
    step s = .next (applyReset m e rest) := by
  simp only [step, takeInput, hin]

theorem step_of_legal {s : State} {a : Agent} {c : Command} {rest : List Input} {i : Instr}
    (hin : s.inputs = .command a c :: rest) (hdec : decode c = .ok i) : step s = exec i (s.accepted rest) := by
  simp only [step, takeInput, hin, hdec]

theorem step_of_illegal {s : State} {a : Agent} {c : Command} {rest : List Input} {e : DecodeError}
    (hin : s.inputs = .command a c :: rest) (hdec : decode c = .error e) :
    step s = .next ((s.accepted rest).respond (.error .illegalCommand)) := by
  simp only [step, takeInput, hin, hdec, raiseException_eq]

theorem accepted_respond_sameRegs (s : State) (rest : List Input) (x : Response) :
    SameRegs s ((s.accepted rest).respond x) :=
  fun r => (respond_readReg _ x r).trans (accepted_readReg s rest r)

/-- Settles O7: the equation of the step on a legal command. -/
theorem stepRunsTheDecodedInstruction : Obligations.StepRunsTheDecodedInstruction :=
  fun _ _ _ _ _ hin hdec => step_of_legal hin hdec

/-- Settles O8: the step takes the command off the port and answers, nothing else. -/
theorem illegalCommandChangesNothing : Obligations.IllegalCommandChangesNothing :=
  fun s _ _ rest _ hin hdec =>
    ⟨_, step_of_illegal hin hdec, rfl, rfl, accepted_respond_sameRegs s rest _, fun _ => rfl, rfl⟩

/-- Settles O10: the idle step only takes the response off the port. -/
theorem idleStepChangesNothing : Obligations.IdleStepChangesNothing :=
  fun s hin => ⟨_, step_of_no_input hin, idleStep_readReg s, rfl, hin⟩

/-! ### Reset -/

theorem resetWith_field (m : TxMode) (e : Bool) (fid : TlmField) : (State.resetWith m e).ts.field fid = 0 := by
  cases fid <;> rfl

theorem resetWith_readReg (m : TxMode) (e : Bool) {r : Reg} (hmode : r ≠ .mode) (htlmEn : r ≠ .tlmEn) :
    (State.resetWith m e).readReg r = 0 := by
  cases r with
  | mode => exact absurd rfl hmode
  | tlmEn => exact absurd rfl htlmEn
  | csCh sel => exact congrArg BitVec.toNat (channels_zero_get sel)
  | lsCh sel => exact congrArg BitVec.toNat (channels_zero_get sel)
  | ts fid => exact congrArg BitVec.toNat (resetWith_field m e fid)
  | _ => rfl

theorem applyReset_readReg (m : TxMode) (e : Bool) (rest : List Input) (r : Reg) :
    (applyReset m e rest).readReg r = (State.resetWith m e).readReg r :=
  readReg_congr r rfl rfl rfl rfl rfl rfl rfl

/-- Settles O9: the state before a reset does not enter the state after it. -/
theorem resetInputZeroesEveryRegister : Obligations.ResetInputZeroesEveryRegister := by
  intro s m e rest hin
  refine ⟨_, step_of_reset hin, fun r hmode htlmEn => ?_, rfl, rfl, rfl, rfl⟩
  rw [applyReset_readReg, resetWith_readReg m e hmode htlmEn]

/-- Settles O12: the first reset is a reset with the open parameters, which leaves `TX` empty. -/
theorem firstResetStateIsZero : Obligations.FirstResetStateIsZero :=
  ⟨fun _ => resetWith_readReg Config.mode Config.tlmEnReset, rfl, rfl, fun _ => rfl⟩

theorem controlPacket_of_zero_cs :
    controlPacketOfRule { armed := false, estop := false, ch := Channels.zero } = [0, 0, 0, 0, 0, 0, 0, 0, 0] := by
  decide

theorem actionSet_of_zero_channels :
    (actionSet { arm := false, disarm := false, estop := false } Channels.zero Channels.zero).mask = 0 := by
  decide

/-- Settles O13: the rules of `ENCODE`, `SYNC` and `GET`, applied to a control state and a snapshot of zeros. -/
theorem firstOperationsAfterResetShowZeros : Obligations.FirstOperationsAfterResetShowZeros := by
  intro e
  refine ⟨⟨_, exec_encode_of_packet rfl, ?_⟩, ⟨_, _, exec_sync_of_delta rfl, syncState_response _, ?_⟩, fun m fid =>
    ⟨_, exec_get fid _, ?_⟩⟩
  · rw [encodeState_response rfl]
    exact congrArg (fun l => some (Response.packet l)) controlPacket_of_zero_cs
  · exact actionSet_of_zero_channels
  · rw [respond_response, resetWith_field]

end Sys2Proof.Machine
end

section
/-! Rules about every instruction and every step (R15, R52, R54, R68, R73, R75, R90): each is proved over the instructions
first and then over the cases of a step. -/

namespace Sys2Proof.Machine

/-! ### The estop latch -/

/-- Only `ESTOP_CLR` clears the estop latch (R54). -/
theorem exec_keeps_cs_estop {i : Instr} {s t : State} (h : exec i s = .next t) (hs : s.cs.estop = true)
    (hi : i ≠ .estopClr) : t.cs.estop = true := by
  cases i with
  | estopClr => exact absurd rfl hi
  | encode => rw [(exec_encode_keeps_cs_ts h).1, hs]
  | sync => rw [(exec_sync_keeps_cs_ts h).1, hs]
  | decode n rx =>
    rcases exec_decode_next h with ⟨p, rfl⟩ | rfl
    · rw [admitPacket_cs_estop, estopLatchNext_eq_or, hs, Bool.true_or]
    · rw [rejectPacket_cs, hs]
  | estop => cases h; rfl
  | _ => cases h; exact hs

theorem runInstrs_keeps_cs_estop {is : List Instr} {s t : State} (h : runInstrs is s = .next t)
    (hs : s.cs.estop = true) (his : .estopClr ∉ is) : t.cs.estop = true := by
  induction is generalizing s with
  | nil => cases h; exact hs
  | cons i rest ih =>
    obtain ⟨hi, hrest⟩ := not_or.1 (mt List.mem_cons.2 his)
    simp only [runInstrs] at h
    split at h
    · next u hu => exact ih h (exec_keeps_cs_estop hu hs (Ne.symm hi)) hrest
    · cases h
    · cases h

/-- Only `ARM` and `DISARM` change the armed latch (R52, R58). -/
theorem arm_or_disarm_of_cs_armed_changed {i : Instr} {s t : State} (h : exec i s = .next t)
    (hchanged : t.cs.armed ≠ s.cs.armed) : i = .arm ∨ i = .disarm := by
  by_contra hother
  obtain ⟨harm, hdisarm⟩ := not_or.1 hother
  exact hchanged (exec_keeps_cs_armed h harm hdisarm)

/-- Settles O44: the armed latch instruction by instruction, the estop latch by induction over the run. -/
theorem latchesMoveOnlyWhereTheRulesSay : Obligations.LatchesMoveOnlyWhereTheRulesSay :=
  ⟨fun _ _ _ => arm_or_disarm_of_cs_armed_changed, fun _ _ _ => runInstrs_keeps_cs_estop⟩

/-! ### What the answer depends on -/

/-- The outcomes of an instruction in two states: one answer, and either the registers it writes end alike or it wrote
none in either (R15, R cells). -/
def Alike (i : Instr) (s t s' t' : State) : Prop :=
  t'.response = s'.response ∧
    ((∀ r ∈ writes i, s'.readReg r = t'.readReg r) ∨ (SameRegs s s' ∧ SameRegs t t'))

theorem alike_respond (i : Instr) (s t : State) (x : Response) : Alike i s t (s.respond x) (t.respond x) :=
  ⟨rfl, .inr ⟨respond_sameRegs s x, respond_sameRegs t x⟩⟩

/-- `TX` after `ENCODE` holds nothing of what it held before (R13, R55). -/
theorem encodePacket_forgets (cs : ControlState) {m n : Memory} (hm : Memory.wf m = true) (hn : Memory.wf n = true) :
    encodePacket cs m = encodePacket cs n := by
  refine memory_ext (encodePacket_wf cs hm) (encodePacket_wf cs hn) fun i => ?_
  have hbytes : Memory.readByte (encodePacket cs m) i = Memory.readByte (encodePacket cs n) i := by
    simp only [readByte_eq_bytes_getElem?, encodePacket_bytes cs hm, encodePacket_bytes cs hn]
  have hin : i.val < txSize := i.isLt
  simpa only [Memory.readByte, hin, if_true, Option.some.injEq] using hbytes

theorem encode_alike {s t s' : State} (hs : Memory.wf s.txbuf = true) (ht : Memory.wf t.txbuf = true)
    (hreads : ∀ r ∈ reads .encode, s.readReg r = t.readReg r) (h : exec .encode s = .next s') :
    ∃ t', exec .encode t = .next t' ∧ Alike .encode s t s' t' := by
  have hmode : s.mode = t.mode := mode_eq_of_readReg (hreads .mode (by decide))
  have hcs : s.cs = t.cs := cs_eq_of_readReg (hreads .csArmed (by decide)) (hreads .csEstop (by decide))
    fun sel => hreads (.csCh sel) (by cases sel <;> decide)
  rcases exec_encode_next h with ⟨hm, rfl⟩ | ⟨hm, rfl⟩
  · have htx : (encodeState s).txbuf = (encodeState t).txbuf := by
      rw [encodeState_txbuf, encodeState_txbuf, hcs, encodePacket_forgets t.cs hs ht]
    refine ⟨_, exec_encode_of_packet (hmode ▸ hm), ?_, .inl fun r hr => ?_⟩
    · rw [encodeState_response hs, encodeState_response ht, hcs]
    · obtain ⟨i, -, rfl⟩ := List.mem_map.1 hr
      simp only [State.readReg, htx]
  · exact ⟨_, exec_encode_of_delta (hmode ▸ hm), alike_respond _ s t _⟩

theorem sync_alike {s t s' : State} (hreads : ∀ r ∈ reads .sync, s.readReg r = t.readReg r)
    (h : exec .sync s = .next s') : ∃ t', exec .sync t = .next t' ∧ Alike .sync s t s' t' := by
  have hmode : s.mode = t.mode := mode_eq_of_readReg (hreads .mode (by decide))
  have hch : s.cs.ch = t.cs.ch := csCh_eq_of_readReg fun sel => hreads (.csCh sel) (by cases sel <;> decide)
  have hls : s.ls = t.ls := ls_eq_of_readReg fun sel => hreads (.lsCh sel) (by cases sel <;> decide)
  have hsend : s.send = t.send := send_eq_of_readReg (hreads .sendArm (by decide)) (hreads .sendDisarm (by decide))
    (hreads .sendEstop (by decide))
  rcases exec_sync_next h with ⟨hm, rfl⟩ | ⟨hm, rfl⟩
  · refine ⟨_, exec_sync_of_delta (hmode ▸ hm), ?_, .inl fun r hr => ?_⟩
    · rw [syncState_response, syncState_response, hch, hls, hsend]
    · have hls' : (syncState s).ls = (syncState t).ls := hch
      have hsend' : (syncState s).send = (syncState t).send := rfl
      cases r with
      | lsCh sel => simp only [State.readReg, hls']
      | sendArm => simp only [State.readReg, hsend']
      | sendDisarm => simp only [State.readReg, hsend']
      | sendEstop => simp only [State.readReg, hsend']
      | _ => simp [writes, Channel.all] at hr
  · exact ⟨_, exec_sync_of_packet (hmode ▸ hm), alike_respond _ s t _⟩

theorem exec_decode_of_not_admitted {n : BitVec 8} {s : State} (hno : ¬(n = 9 ∧ s.tlmEn = true)) (rx : List Byte) :
    exec (.decode n rx) s = .next (rejectPacket s) := by
  rcases execDecode_cases n rx s with ⟨hn, hen, _⟩ | ⟨_, hx⟩ | ⟨hn, hen, _⟩
  · exact absurd ⟨hn, hen⟩ hno
  · exact hx
  · exact absurd ⟨hn, hen⟩ hno

theorem takePacket_field_congr (a b : TelemetryState) (p : RxPacket) {fid : TlmField} (h : fid ∈ packetFields) :
    (a.takePacket p).field fid = (b.takePacket p).field fid := by
  cases fid with
  | accX => exact absurd h (by decide)
  | accY => exact absurd h (by decide)
  | accZ => exact absurd h (by decide)
  | _ => rfl

theorem admitPacket_alike {n : BitVec 8} {rx : List Byte} {s t : State} (p : RxPacket)
    (harmed : s.cs.armed = t.cs.armed) (hestop : s.cs.estop = t.cs.estop) :
    Alike (.decode n rx) s t (admitPacket p s) (admitPacket p t) := by
  refine ⟨rfl, .inl fun r hr => ?_⟩
  cases r with
  | csArmed => simp only [State.readReg, admitPacket_cs_armed, harmed]
  | csEstop => simp only [State.readReg, admitPacket_cs_estop, hestop]
  | ts fid =>
    have hfid : fid ∈ packetFields := by simpa [writes] using hr
    exact congrArg BitVec.toNat (takePacket_field_congr s.ts t.ts p hfid)
  | _ => simp [writes, packetFields] at hr

theorem decode_alike {n : BitVec 8} {rx : List Byte} {s t s' : State}
    (hreads : ∀ r ∈ [Reg.csArmed, .csEstop, .tlmEn], s.readReg r = t.readReg r)
    (h : exec (.decode n rx) s = .next s') :
    ∃ t', exec (.decode n rx) t = .next t' ∧ Alike (.decode n rx) s t s' t' := by
  have harmed := csArmed_eq_of_readReg (hreads .csArmed (by decide))
  have hestop := csEstop_eq_of_readReg (hreads .csEstop (by decide))
  have hen := tlmEn_eq_of_readReg (hreads .tlmEn (by decide))
  rcases execDecode_cases n rx s with ⟨hn, hs, p, hp, hx⟩ | ⟨hno, hx⟩ | ⟨_, _, f, _, hx⟩
  · cases h.symm.trans hx
    exact ⟨_, exec_decode_of_admitted hn (hen ▸ hs) hp, admitPacket_alike p harmed hestop⟩
  · cases h.symm.trans hx
    refine ⟨_, exec_decode_of_not_admitted (hen ▸ hno) rx, ?_⟩
    rw [rejectPacket_eq, rejectPacket_eq, hen]
    exact alike_respond _ s t _
  · cases h.symm.trans hx

/-- The access table R15 bounds what an instruction reads. -/
theorem exec_alike {i : Instr} {s t s' : State} (hs : Memory.wf s.txbuf = true) (ht : Memory.wf t.txbuf = true)
    (hreads : ∀ r ∈ reads i, s.readReg r = t.readReg r) (h : exec i s = .next s') :
    ∃ t', exec i t = .next t' ∧ Alike i s t s' t' := by
  cases i with
  | f32ToF16 x => cases h; exact ⟨_, exec_f32ToF16 x t, alike_respond _ s t _⟩
  | f16ToF32 x => cases h; exact ⟨_, exec_f16ToF32 x t, alike_respond _ s t _⟩
  | get fid =>
    cases h
    refine ⟨_, exec_get fid t, ?_⟩
    rw [field_eq_of_readReg (hreads (.ts fid) (List.mem_singleton_self _))]
    exact alike_respond _ s t _
  | encode => exact encode_alike hs ht hreads h
  | sync => exact sync_alike hreads h
  | decode n rx => exact decode_alike hreads h
  | setch sel v => cases h; exact ⟨_, exec_setch sel v t, rfl, .inl (by simp [writes, State.readReg])⟩
  | setacc sel v => cases h; exact ⟨_, exec_setacc sel v t, rfl, .inl (by simp [writes, State.readReg])⟩
  | _ => cases h; exact ⟨_, rfl, rfl, .inl (by simp [writes, State.readReg])⟩

/-- Settles O46: a register the instruction does not write is left alone in both states by its frame. -/
theorem onlyListedRegistersAreRead : Obligations.OnlyListedRegistersAreRead := by
  intro i s t s' hs ht hreads h
  obtain ⟨t', h', hresponse, hregs⟩ := exec_alike hs ht hreads h
  refine ⟨t', h', hresponse, fun r => ?_⟩
  by_cases hr : r ∈ writes i
  · rcases hregs with hset | ⟨hkept, hkept'⟩
    · exact .inl (hset r hr)
    · exact .inr ⟨hkept r, hkept' r⟩
  · exact .inr ⟨exec_keeps_reg h hr, exec_keeps_reg h' hr⟩

/-! ### Errors -/

/-- An instruction that answers an error has only answered it (R75). -/
theorem exec_of_error {i : Instr} {s t : State} {e : Exception} (h : exec i s = .next t)
    (he : t.response = some (.error e)) : t = s.respond (.error e) := by
  have honly : ∀ r, t = s.respond r → t = s.respond (.error e) := by
    rintro r rfl
    rw [Option.some.inj he]
  cases i with
  | encode =>
    rcases exec_encode_next h with ⟨-, rfl⟩ | ⟨-, rfl⟩
    · cases he
    · exact honly _ rfl
  | sync =>
    rcases exec_sync_next h with ⟨-, rfl⟩ | ⟨-, rfl⟩
    · cases he
    · exact honly _ rfl
  | decode n rx =>
    rcases exec_decode_next h with ⟨p, rfl⟩ | rfl
    · cases he
    · exact honly _ (rejectPacket_eq s)
  | _ => cases h; cases he

/-- Settles O47: an illegal command and an instruction that answers an error only answer; the other steps answer none. -/
theorem errorsLeaveNoTrace : Obligations.ErrorsLeaveNoTrace := by
  intro s t e h he
  rcases step_cases s with ⟨_, hs⟩ | ⟨m, en, rest, _, hs⟩ | ⟨a, c, rest, i, _, _, hs⟩ | ⟨a, c, rest, d, _, _, hs⟩
  · cases h.symm.trans hs
    cases he
  · cases h.symm.trans hs
    cases he
  · rw [hs] at h
    rw [exec_of_error h he]
    exact ⟨accepted_respond_sameRegs s rest _, fun _ => rfl⟩
  · cases h.symm.trans hs
    exact ⟨accepted_respond_sameRegs s rest _, fun _ => rfl⟩

/-! ### Responses and inputs -/

theorem exec_response_isSome {i : Instr} {s t : State} (h : exec i s = .next t) : t.response.isSome = true := by
  cases i with
  | encode => rcases exec_encode_next h with ⟨-, rfl⟩ | ⟨-, rfl⟩ <;> rfl
  | sync => rcases exec_sync_next h with ⟨-, rfl⟩ | ⟨-, rfl⟩ <;> rfl
  | decode n rx =>
    rcases exec_decode_next h with ⟨p, rfl⟩ | rfl
    · rfl
    · rw [rejectPacket_eq, respond_response, Option.isSome_some]
  | _ => cases h; rfl

/-- Settles O50: the four kinds of step, one after the other. -/
theorem everyCommandGetsOneResponse : Obligations.EveryCommandGetsOneResponse := by
  intro s hwf
  rcases step_cases s with ⟨hin, hs⟩ | ⟨m, en, rest, hin, hs⟩ | ⟨a, c, rest, i, hin, hdec, hs⟩ |
    ⟨a, c, rest, d, hin, _, hs⟩
  · exact ⟨_, hs, by rw [hin]; exact hin, by simp [idleStep, hin]⟩
  · exact ⟨_, hs, by rw [hin]; rfl, by simp [applyReset, State.resetWith, hin]⟩
  · have hc : c.WellFormed := hwf (.command a c) (by simp [hin])
    obtain ⟨t, ht⟩ := exec_next_of_wellFormed i (wellFormed_of_decode_ok hdec hc) (s.accepted rest)
    exact ⟨t, hs.trans ht, by rw [exec_inputs ht, accepted_inputs, hin, List.tail_cons],
      by simp [exec_response_isSome ht, hin]⟩
  · exact ⟨_, hs, by rw [respond_inputs, accepted_inputs, hin, List.tail_cons], by simp [hin]⟩

/-! ### Mode, agents -/

/-- Settles O51: the frames of the instructions, through the cases of a step. -/
theorem modeIsFixedForTheSession : Obligations.ModeIsFixedForTheSession := by
  intro s t h hnoreset
  rcases step_cases s with ⟨_, hs⟩ | ⟨m, en, rest, hin, _⟩ | ⟨a, c, rest, i, hin, hdec, hs⟩ | ⟨a, c, rest, d, _, _, hs⟩
  · cases h.symm.trans hs
    exact ⟨rfl, fun hne => absurd rfl hne⟩
  · exact absurd (by rw [hin, List.head?_cons]) (hnoreset m en)
  · rw [hs] at h
    refine ⟨(exec_mode h).trans (accepted_mode s rest), fun hne => ⟨a, c, by rw [hin, List.head?_cons], ?_⟩⟩
    by_contra hother
    rw [hdec] at hother
    obtain ⟨hen, hdis⟩ := not_or.1 hother
    exact hne ((exec_tlmEn_eq h (fun hi => hen (congrArg _ hi)) fun hi => hdis (congrArg _ hi)).trans
      (accepted_tlmEn s rest))
  · cases h.symm.trans hs
    exact ⟨rfl, fun hne => absurd rfl hne⟩

/-- A disciplined RX agent presents `DECODE` (R73). -/
theorem decode_of_disciplined_rx {c : Command} (h : (Input.command .rx c).Disciplined) :
    decode c = .ok (.decode c.rxLen c.rxData) := by
  have hop : selectOp c.cmd = some .decode := by
    by_contra hno
    have hhost : Agent.rx = Agent.host := h.trans (if_neg hno)
    cases hhost
  exact decode_of_selectOp hop

/-- Settles O52: the frame of `DECODE`, less the armed latch, which `DECODE` rewrites with its own value. -/
theorem rxAgentWritesTelemetryAndEstopOnly : Obligations.RxAgentWritesTelemetryAndEstopOnly := by
  intro s t c rest hin hdisc h
  rw [step_of_legal hin (decode_of_disciplined_rx hdisc)] at h
  refine ⟨fun r hr => ?_, fun hs => exec_keeps_cs_estop h hs nofun⟩
  by_cases harmed : r = .csArmed
  · subst harmed
    exact congrArg Bool.toNat ((exec_decode_keeps_cs_armed h).trans (congrArg _ (accepted_cs s rest)))
  · have hkept := exec_keeps_reg h fun hr' => (List.mem_cons.1 hr').elim harmed hr
    exact hkept.trans (accepted_readReg s rest r)

/-- Settles O57: the packet's OR is undone by `ESTOP_CLR` in one order and not in the other. -/
theorem orderOfTheAgentsMatters : Obligations.OrderOfTheAgentsMatters := by
  intro s a b f data rest hen hlen hf packet clear
  have hnine : (f :: data).length = 9 := congrArg (· + 1) hlen
  obtain ⟨p, hp⟩ := readPacket_of_length hnine
  have hflags := readPacket_flags hp hlen
  have hpacket : ∀ u : State, u.tlmEn = true → ∀ l, u.inputs = packet :: l →
      step u = .next (admitPacket p (u.accepted l)) := fun u hu l hin =>
    (step_of_legal hin (decode_encode _)).trans (exec_decode_of_admitted rfl hu hp)
  have hclear : ∀ u : State, ∀ l, u.inputs = clear :: l → step u = exec .estopClr (u.accepted l) :=
    fun u l hin => step_of_legal hin (decode_encode _)
  refine ⟨_, _, _, _, hpacket { s with inputs := packet :: clear :: rest } hen _ rfl, hclear _ rest rfl,
    hclear { s with inputs := clear :: packet :: rest } _ rfl, hpacket _ (by exact hen) rest rfl,
    rfl, ?_, rfl, ?_, rfl, rfl, rfl⟩
  · rw [admitPacket_cs_estop, estopLatchNext_eq_or, hflags, hf, Bool.or_true]
  · rw [admitPacket_cs_armed]
    exact armedLatchNext_eq_old s.cs.armed _

end Sys2Proof.Machine
end

section
/-! The invariant of the block (R34, R36, R39, R40, R44, R67): the part about the registers and the inputs, and the part
about the response, each kept by every instruction. -/

namespace Sys2Proof.Machine

/-- The clauses of `BlockInv` that do not look at the response port. -/
structure RegisterInv (s : State) : Prop where
  memory : Memory.wf s.txbuf = true
  inputs : InputsWellFormed s
  reserved : Memory.byteAt s.txbuf 0 &&& 0xFC#8 = 0#8
  telemetry : ∀ sel : Channel, ∃ h : Half, s.ts.ch.get sel = f16ToF32 h
  packetMode : s.mode = .packet → s.ls = Channels.zero
  deltaMode : s.mode = .delta → s.txbuf = []

/-- The clauses of `BlockInv` about the response port. -/
structure ResponseInv (s : State) : Prop where
  txData : ∀ p, s.response = some (.packet p) → p = Memory.bytes s.txbuf
  actVal : ∀ a, s.response = some (.actions a) →
    ∀ sel : Channel, (a.val.get sel).isSome = a.mask.getLsbD (3 + sel.code.toNat)

theorem blockInv_iff (s : State) : BlockInv s ↔ RegisterInv s ∧ ResponseInv s :=
  ⟨fun ⟨h1, h2, h3, h4, h5, h6, h7, h8⟩ => ⟨⟨h1, h2, h3, h4, h5, h6⟩, h7, h8⟩,
    fun ⟨⟨h1, h2, h3, h4, h5, h6⟩, h7, h8⟩ => ⟨h1, h2, h3, h4, h5, h6, h7, h8⟩⟩

/-! ### Responses -/

theorem responseInv_of_none {s : State} (h : s.response = none) : ResponseInv s :=
  ⟨by simp [h], by simp [h]⟩

theorem responseInv_respond (s : State) {r : Response} (hp : ∀ p, r ≠ .packet p) (ha : ∀ a, r ≠ .actions a) :
    ResponseInv (s.respond r) :=
  ⟨fun p h => absurd (Option.some.inj h) (hp p), fun a h => absurd (Option.some.inj h) (ha a)⟩

theorem encodeState_responseInv (s : State) : ResponseInv (encodeState s) where
  txData p h := by
    cases h
    rfl
  actVal a h := by cases h

theorem syncState_responseInv (s : State) : ResponseInv (syncState s) where
  txData p h := by cases h
  actVal a h sel := by
    cases h
    exact actionSet_val_isSome s.send s.cs.ch s.ls sel

/-- Whatever stood on the port before, an instruction leaves a response that fits the state. -/
theorem exec_responseInv {i : Instr} {s t : State} (h : exec i s = .next t) : ResponseInv t := by
  cases i with
  | encode =>
    rcases exec_encode_next h with ⟨-, rfl⟩ | ⟨-, rfl⟩
    · exact encodeState_responseInv s
    · exact responseInv_respond s nofun nofun
  | sync =>
    rcases exec_sync_next h with ⟨-, rfl⟩ | ⟨-, rfl⟩
    · exact syncState_responseInv s
    · exact responseInv_respond s nofun nofun
  | decode n rx =>
    rcases exec_decode_next h with ⟨p, rfl⟩ | rfl
    · exact responseInv_respond _ nofun nofun
    · rw [rejectPacket_eq]
      split
      · exact responseInv_respond s nofun nofun
      · exact responseInv_respond s nofun nofun
  | _ => cases h; exact responseInv_respond _ nofun nofun

/-! ### Registers -/

/-- What the clauses look at. -/
theorem RegisterInv.congr {s t : State} (h : RegisterInv s) (htx : t.txbuf = s.txbuf) (hin : t.inputs = s.inputs)
    (hch : t.ts.ch = s.ts.ch) (hmode : t.mode = s.mode) (hls : t.ls = s.ls) : RegisterInv t where
  memory := htx ▸ h.memory
  inputs := fun x hx => h.inputs x (hin ▸ hx)
  reserved := htx ▸ h.reserved
  telemetry := hch ▸ h.telemetry
  packetMode := fun hm => hls.trans (h.packetMode (hmode ▸ hm))
  deltaMode := fun hm => htx.trans (h.deltaMode (hmode ▸ hm))

theorem RegisterInv.respond {s : State} (h : RegisterInv s) (r : Response) : RegisterInv (s.respond r) :=
  h.congr rfl rfl rfl rfl rfl

theorem RegisterInv.with_inputs {s : State} {l : List Input} (h : RegisterInv s) (hl : ∀ x ∈ l, x.WellFormed) :
    RegisterInv { s with inputs := l } :=
  { h with inputs := hl }

/-- The flag byte of a sent packet has no reserved bit set (R34, R55). -/
theorem controlFlags_reserved (cs : ControlState) : controlFlags cs &&& 0xFC#8 = 0#8 := by
  unfold controlFlags
  cases cs.estop <;> cases cs.armed <;> decide

theorem encodeState_registerInv {s : State} (hmode : s.mode = .packet) (h : RegisterInv s) :
    RegisterInv (encodeState s) where
  memory := encodePacket_wf s.cs h.memory
  inputs := h.inputs
  reserved := by
    rw [encodeState_txbuf, encodePacket_byteAt s.cs h.memory]
    exact controlFlags_reserved s.cs
  telemetry := h.telemetry
  packetMode := h.packetMode
  deltaMode := fun hdelta => absurd (hmode.symm.trans hdelta) (by decide)

theorem syncState_registerInv {s : State} (hmode : s.mode = .delta) (h : RegisterInv s) :
    RegisterInv (syncState s) :=
  { h with packetMode := fun hpacket => absurd (hmode.symm.trans hpacket) (by decide) }

theorem admitPacket_registerInv {s : State} (p : RxPacket) (h : RegisterInv s) : RegisterInv (admitPacket p s) :=
  { h with
    telemetry := fun sel => by
      cases sel with
      | throttle => exact ⟨p.throttle, rfl⟩
      | pitch => exact ⟨p.pitch, rfl⟩
      | roll => exact ⟨p.roll, rfl⟩
      | yaw => exact ⟨p.yaw, rfl⟩ }

theorem exec_registerInv {i : Instr} {s t : State} (h : exec i s = .next t) (hs : RegisterInv s) : RegisterInv t := by
  cases i with
  | encode =>
    rcases exec_encode_next h with ⟨hmode, rfl⟩ | ⟨-, rfl⟩
    · exact encodeState_registerInv hmode hs
    · exact hs.respond _
  | sync =>
    rcases exec_sync_next h with ⟨hmode, rfl⟩ | ⟨-, rfl⟩
    · exact syncState_registerInv hmode hs
    · exact hs.respond _
  | decode n rx =>
    rcases exec_decode_next h with ⟨p, rfl⟩ | rfl
    · exact admitPacket_registerInv p hs
    · rw [rejectPacket_eq]
      exact hs.respond _
  | _ => cases h; exact hs.congr rfl rfl rfl rfl rfl

/-! ### Reset -/

theorem resetWith_registerInv (m : TxMode) (e : Bool) : RegisterInv (State.resetWith m e) where
  memory := rfl
  inputs := fun _ hx => absurd hx List.not_mem_nil
  reserved := (by decide : Memory.byteAt [] 0 &&& 0xFC#8 = 0#8)
  telemetry := fun sel => ⟨0, (channels_zero_get sel).trans (by decide)⟩
  packetMode := fun _ => rfl
  deltaMode := fun _ => rfl

theorem resetWith_blockInv (m : TxMode) (e : Bool) : BlockInv (State.resetWith m e) :=
  (blockInv_iff _).2 ⟨resetWith_registerInv m e, responseInv_of_none rfl⟩

/-- Settles O49: zeros meet every clause, whatever the two parameters are. -/
theorem resetMeetsTheInvariant : Obligations.ResetMeetsTheInvariant :=
  ⟨resetWith_blockInv, resetWith_blockInv Config.mode Config.tlmEnReset⟩

/-- Settles O48: a step is idle, a reset, an instruction or an error answer, and each keeps both parts. -/
theorem stepKeepsTheInvariant : Obligations.StepKeepsTheInvariant := by
  intro s t hinv h
  obtain ⟨hs, -⟩ := (blockInv_iff s).1 hinv
  rw [blockInv_iff]
  have htail : ∀ {x rest}, s.inputs = x :: rest → ∀ y ∈ rest, y.WellFormed := fun hin y hy =>
    hs.inputs y (hin ▸ List.mem_cons_of_mem _ hy)
  rcases step_cases s with ⟨_, hstep⟩ | ⟨m, e, rest, hin, hstep⟩ | ⟨a, c, rest, i, hin, _, hstep⟩ |
    ⟨a, c, rest, d, hin, _, hstep⟩
  · cases h.symm.trans hstep
    exact ⟨hs.congr rfl rfl rfl rfl rfl, responseInv_of_none rfl⟩
  · cases h.symm.trans hstep
    exact ⟨(resetWith_registerInv m e).with_inputs (htail hin), responseInv_of_none rfl⟩
  · rw [hstep] at h
    exact ⟨exec_registerInv h (hs.with_inputs (htail hin)), exec_responseInv h⟩
  · cases h.symm.trans hstep
    exact ⟨(hs.with_inputs (htail hin)).respond _, responseInv_respond _ nofun nofun⟩

end Sys2Proof.Machine
end

section
/-! The codec as natural-number arithmetic (R43, R44): both directions treat the sign apart and map the index of the
magnitude, `x[30:0]` or `h[14:0]`, by the integer rule. -/

namespace Sys2Proof.Machine

/-! ### Narrowing -/

/-- The mask `0x7C00` keeps a five-bit exponent (R43). -/
theorem halfExponent_toNat : ∀ k < 32, ((BitVec.ofNat 16 k <<< 10) &&& 0x7C00#16).toNat = k * 2 ^ 10 := by
  decide

/-- In the subnormal range of R43 the sum stays below 2^24 and the shift is at least 13, so nothing is cut off. -/
theorem subnormal_bounds {e m : Nat} (he : e ≤ 112) (hm : m < 2 ^ 23) :
    (0x007FF000 + m) / 2 ^ (125 - e) < 2 ^ 11 := by
  have hpow : 2 ^ 13 ≤ 2 ^ (125 - e) := Nat.pow_le_pow_right (by decide) (by omega)
  calc (0x007FF000 + m) / 2 ^ (125 - e) ≤ (0x007FF000 + m) / 2 ^ 13 := Nat.div_le_div_left hpow (by decide)
    _ < 2 ^ 11 := by omega

theorem halfMagnitude_toNat (e : BitVec 8) (m : BitVec 23) :
    (halfMagnitude e m).toNat = halfMagnitudeOfRule e.toNat m.toNat := by
  have he := e.isLt
  have hm := m.isLt
  simp only [halfMagnitude, halfMagnitudeOfRule]
  split
  · rfl
  split
  · have hman : (m >>> 13).toNat = m.toNat / 2 ^ 13 := by simp [Nat.shiftRight_eq_div_pow]
    have hlt : m.toNat / 2 ^ 13 < 2 ^ 10 := by omega
    rw [BitVec.toNat_or, halfExponent_toNat _ (by omega), BitVec.toNat_setWidth, hman, Nat.mod_eq_of_lt (by omega),
      ← Nat.shiftLeft_eq, ← Nat.shiftLeft_add_eq_or_of_lt hlt]
  split
  · have hb := subnormal_bounds (e := e.toNat) (m := m.toNat) (by omega) hm
    have hsum : (subnormalOffset + m.setWidth 32).toNat = 0x007FF000 + m.toNat := by
      simp [subnormalOffset]
      omega
    simp only [BitVec.toNat_setWidth, BitVec.toNat_ushiftRight, BitVec.toNat_add, hsum, Nat.shiftRight_eq_div_pow, pow_one,
      BitVec.toNat_ofNat]
    generalize (0x007FF000 + m.toNat) / 2 ^ (125 - e.toNat) = q at hb ⊢
    omega
  · rfl

theorem halfMagnitudeOfRule_lt {e m : Nat} (hm : m < 2 ^ 23) : halfMagnitudeOfRule e m < 2 ^ 15 := by
  simp only [halfMagnitudeOfRule]
  split
  · decide
  split
  · omega
  split
  · have hb := subnormal_bounds (e := e) (by omega) hm
    omega
  · decide

/-- Sign and magnitude of a HalfFloat put together by OR are their weighted sum (R43). -/
theorem sign_or_magnitude_toNat (sign : Bool) {mag : Half} (hmag : mag.toNat < 2 ^ 15) :
    (bitAt 16 15 sign ||| mag).toNat = sign.toNat * 2 ^ 15 + mag.toNat := by
  rw [BitVec.toNat_or, bitAt_toNat sign (by decide), ← Nat.shiftLeft_eq, ← Nat.shiftLeft_add_eq_or_of_lt hmag]

/-- `f32_to_f16` by R43 as numbers: the sign of the biased word, and the narrowed magnitude. -/
theorem f32ToF16_toNat (x : Word) :
    let b := (x.toNat + 0x00001000) % 2 ^ 32
    (f32ToF16 x).toNat = b / 2 ^ 31 * 2 ^ 15 + halfMagnitudeOfRule (b / 2 ^ 23 % 2 ^ 8) (b % 2 ^ 23) := by
  intro b
  have hb : (x + roundingBias).toNat = b := BitVec.toNat_add x roundingBias
  have hmag := halfMagnitude_toNat (exp32 (x + roundingBias)) (man32 (x + roundingBias))
  rw [exp32_toNat, man32_toNat, hb] at hmag
  have hlt : (halfMagnitude (exp32 (x + roundingBias)) (man32 (x + roundingBias))).toNat < 2 ^ 15 :=
    hmag ▸ halfMagnitudeOfRule_lt (Nat.mod_lt _ (by decide))
  rw [f32ToF16, sign_or_magnitude_toNat _ hlt, sign32_toNat, hb, hmag]

/-- Settles O14: the answer is the zero-extended code, which as a number is what R43 says. -/
theorem narrowingFollowsTheIntegerRule : Obligations.NarrowingFollowsTheIntegerRule := by
  intro x s b
  refine ⟨_, exec_f32ToF16 x s, ?_, respond_unchanged s _⟩
  rw [respond_response, ← f32ToF16_toNat x, BitVec.ofNat_toNat]

/-! ### Widening -/

/-- The magnitude `x[30:0]` of the widened code with magnitude index `k`, by R44. -/
def widenMagnitude (k : Nat) : Nat :=
  if k / 2 ^ 10 ≠ 0 then (k / 2 ^ 10 + 112) * 2 ^ 23 + k % 2 ^ 10 * 2 ^ 13
  else if k % 2 ^ 10 = 0 then 0
  else (103 + Nat.log2 (k % 2 ^ 10)) * 2 ^ 23 + k % 2 ^ 10 * 2 ^ (23 - Nat.log2 (k % 2 ^ 10)) % 2 ^ 23

/-- The three parts of R44 put together, the exponent and the mantissa at their places. -/
theorem widened_fields_toNat (sign : Bool) {e : Nat} (he : e < 2 ^ 8) {man : Word} (hman : man.toNat < 2 ^ 23) :
    (bitAt 32 31 sign ||| (BitVec.ofNat 32 e <<< 23) ||| man).toNat = sign.toNat * 2 ^ 31 + (e * 2 ^ 23 + man.toNat) := by
  have hexp : (BitVec.ofNat 32 e <<< 23).toNat = e * 2 ^ 23 := by
    rw [BitVec.toNat_shiftLeft, BitVec.toNat_ofNat, Nat.shiftLeft_eq]
    omega
  rw [BitVec.toNat_or, BitVec.toNat_or, bitAt_toNat sign (by decide), hexp,
    fields_or _ _ _ (Bool.toNat_lt sign) he hman, Nat.add_assoc]

theorem log2_lt_ten {m : Nat} (hm : m < 2 ^ 10) (hpos : m ≠ 0) : Nat.log2 m < 10 :=
  (Nat.log2_lt hpos).2 hm

/-- The promoted mantissa of R44: shifted up, and cut to 23 bits by the mask. -/
theorem promoted_mantissa_toNat (m : BitVec 10) (k : Nat) :
    ((m.setWidth 32 <<< k) &&& 0x007FFFFF#32).toNat = m.toNat * 2 ^ k % 2 ^ 23 := by
  have hmask : (0x007FFFFF#32).toNat = 2 ^ 23 - 1 := rfl
  have hm := m.isLt
  rw [BitVec.toNat_and, hmask, Nat.and_two_pow_sub_one_eq_mod, BitVec.toNat_shiftLeft, BitVec.toNat_setWidth,
    Nat.shiftLeft_eq, Nat.mod_eq_of_lt (a := m.toNat) (by omega), Nat.mod_mod_of_dvd _ (by decide)]

/-- `f16_to_f32` by R44 as numbers. -/
theorem f16ToF32_toNat (h : Half) :
    (f16ToF32 h).toNat = h.toNat / 2 ^ 15 * 2 ^ 31 + widenMagnitude (h.toNat % 2 ^ 15) := by
  have hsign := sign16_toNat h
  have hexp : (exp16 h).toNat = h.toNat % 2 ^ 15 / 2 ^ 10 := by rw [exp16_toNat]; omega
  have hman : (man16 h).toNat = h.toNat % 2 ^ 15 % 2 ^ 10 := by rw [man16_toNat]; omega
  have hlt : (man16 h).toNat < 2 ^ 10 := (man16 h).isLt
  have he : (exp16 h).toNat < 2 ^ 5 := (exp16 h).isLt
  rw [widenMagnitude, ← hexp, ← hman, ← hsign]
  simp only [f16ToF32]
  by_cases hexp0 : exp16 h ≠ 0
  · have hpos : (exp16 h).toNat ≠ 0 := fun h0 => hexp0 (BitVec.eq_of_toNat_eq h0)
    have hplace : ((man16 h).setWidth 32 <<< 13).toNat = (man16 h).toNat * 2 ^ 13 := by
      rw [BitVec.toNat_shiftLeft, BitVec.toNat_setWidth, Nat.shiftLeft_eq]
      omega
    rw [if_pos hexp0, if_pos hpos, widened_fields_toNat _ (by omega) (by omega), hplace]
  · have hzero : ¬(exp16 h).toNat ≠ 0 := fun h0 => hexp0 fun h1 => h0 (congrArg BitVec.toNat h1)
    rw [if_neg hexp0, if_neg hzero]
    by_cases hman0 : man16 h = 0
    · have hnone : (man16 h).toNat = 0 := congrArg BitVec.toNat hman0
      rw [if_pos hman0, if_pos hnone, bitAt_toNat _ (by decide), Nat.add_zero]
    · have hpos : (man16 h).toNat ≠ 0 := fun h0 => hman0 (BitVec.eq_of_toNat_eq h0)
      have hlog := log2_lt_ten hlt hpos
      have hplace := promoted_mantissa_toNat (man16 h) (23 - Nat.log2 (man16 h).toNat)
      have hcut : (man16 h).toNat * 2 ^ (23 - Nat.log2 (man16 h).toNat) % 2 ^ 23 < 2 ^ 23 := Nat.mod_lt _ (by decide)
      rw [if_neg hman0, if_neg hpos, msbIndex_eq_log2 _ hman0, widened_fields_toNat _ (by omega) (hplace ▸ hcut),
        hplace]

/-- Settles O15: the answer is the widened pattern, which as a number is what R44 says. -/
theorem wideningFollowsTheIntegerRule : Obligations.WideningFollowsTheIntegerRule := by
  intro h s sign e m mag
  refine ⟨_, exec_f16ToF32 h s, ?_, respond_unchanged s _⟩
  have he : e = h.toNat % 2 ^ 15 / 2 ^ 10 := by omega
  have hm : m = h.toNat % 2 ^ 15 % 2 ^ 10 := by omega
  have hmag : mag = widenMagnitude (h.toNat % 2 ^ 15) := by rw [widenMagnitude, ← he, ← hm]
  rw [respond_response, hmag, ← f16ToF32_toNat, BitVec.ofNat_toNat, BitVec.setWidth_eq]

end Sys2Proof.Machine
end

section
/-! The values of the two formats (R37, R38) and the rounding law of R45. Both formats number their magnitudes in order,
binade after binade, so one function gives the value of an index in either; the law says at which value narrowing passes
from one index to the next. -/

namespace Sys2Proof.Machine

/-! ### Values by index -/

/-- The value of the magnitude with index `n` in a format of `w` mantissa bits, in units of its smallest one: the first
`2^w` indices count units, and every further binade doubles the step (R37, R38). -/
def binadeValue (w n : Nat) : Nat :=
  if n / 2 ^ w = 0 then n % 2 ^ w else (2 ^ w + n % 2 ^ w) * 2 ^ (n / 2 ^ w - 1)

theorem binadeValue_mul_add {w q r : Nat} (hr : r < 2 ^ w) :
    binadeValue w (q * 2 ^ w + r) = if q = 0 then r else (2 ^ w + r) * 2 ^ (q - 1) := by
  have hdiv : (q * 2 ^ w + r) / 2 ^ w = q := by
    rw [Nat.mul_comm, Nat.mul_add_div (Nat.two_pow_pos w), Nat.div_eq_of_lt hr, Nat.add_zero]
  have hmod : (q * 2 ^ w + r) % 2 ^ w = r := by rw [Nat.mul_add_mod_self_right, Nat.mod_eq_of_lt hr]
  rw [binadeValue, hdiv, hmod]

/-- One index further is one step further, inside a binade and across its end alike. -/
theorem binadeValue_succ (w n : Nat) : binadeValue w (n + 1) = binadeValue w n + 2 ^ (n / 2 ^ w - 1) := by
  have hr : n % 2 ^ w < 2 ^ w := Nat.mod_lt _ (Nat.two_pow_pos w)
  have hn : n / 2 ^ w * 2 ^ w + n % 2 ^ w = n := Nat.div_add_mod' n (2 ^ w)
  generalize n / 2 ^ w = q at hn ⊢
  generalize n % 2 ^ w = r at hn hr
  subst hn
  rw [binadeValue_mul_add hr]
  by_cases hlast : r + 1 < 2 ^ w
  · rw [Nat.add_assoc, binadeValue_mul_add hlast]
    split
    · simp [*]
    · ring
  · have hnext : q * 2 ^ w + r + 1 = (q + 1) * 2 ^ w + 0 := by
      rw [Nat.add_mul]
      omega
    rw [hnext, binadeValue_mul_add (Nat.two_pow_pos w), if_neg (Nat.succ_ne_zero q)]
    obtain rfl : r = 2 ^ w - 1 := by omega
    have hpos := Nat.two_pow_pos w
    cases q with
    | zero => simp; omega
    | succ k =>
      obtain ⟨v, hv⟩ : ∃ v, 2 ^ w = v + 1 := ⟨2 ^ w - 1, by omega⟩
      simp [hv, pow_succ]
      ring

theorem binadeValue_strictMono (w : Nat) : StrictMono (binadeValue w) :=
  strictMono_nat_of_lt_succ fun n => by
    rw [binadeValue_succ]
    exact Nat.lt_add_of_pos_right (Nat.two_pow_pos _)

theorem magnitude32_eq (x : Word) : magnitude32 x = binadeValue 23 (x.toNat % 2 ^ 31) := by
  have hexp : (exp32 x).toNat = x.toNat % 2 ^ 31 / 2 ^ 23 := by rw [exp32_toNat]; omega
  have hman : (man32 x).toNat = x.toNat % 2 ^ 31 % 2 ^ 23 := by rw [man32_toNat]; omega
  rw [magnitude32, binadeValue, ← hexp, ← hman]
  simp only [← BitVec.toNat_inj]
  rfl

theorem magnitude16_eq (h : Half) : magnitude16 h = binadeValue 10 (h.toNat % 2 ^ 15) * 2 ^ 125 := by
  have hexp : (exp16 h).toNat = h.toNat % 2 ^ 15 / 2 ^ 10 := by rw [exp16_toNat]; omega
  have hman : (man16 h).toNat = h.toNat % 2 ^ 15 % 2 ^ 10 := by rw [man16_toNat]; omega
  rw [magnitude16, binadeValue, ← hexp, ← hman]
  simp only [← BitVec.toNat_inj]
  rfl

theorem grid_eq {k : Nat} (hk : k < 2 ^ 15) : grid k = binadeValue 10 k * 2 ^ 125 := by
  rw [grid, magnitude16_eq, BitVec.toNat_ofNat, Nat.mod_eq_of_lt (a := k) (by omega), Nat.mod_eq_of_lt hk]

theorem grid_lt_grid {j k : Nat} (hjk : j < k) (hk : k < 2 ^ 15) : grid j < grid k := by
  rw [grid_eq (hjk.trans hk), grid_eq hk]
  exact Nat.mul_lt_mul_of_pos_right (binadeValue_strictMono 10 hjk) (by decide)

/-- A subnormal mantissa shifted up by its leading one lies in one binade (R44, D7). -/
theorem promoted_mantissa_bounds {m : Nat} (hm : m < 2 ^ 10) (hm0 : m ≠ 0) :
    2 ^ 23 ≤ m * 2 ^ (23 - Nat.log2 m) ∧ m * 2 ^ (23 - Nat.log2 m) < 2 ^ 24 := by
  have hlog := log2_lt_ten hm hm0
  have hlow : 2 ^ Nat.log2 m * 2 ^ (23 - Nat.log2 m) = 2 ^ 23 := by
    rw [← pow_add, Nat.add_sub_of_le (by omega)]
  have hhigh : 2 ^ (Nat.log2 m + 1) * 2 ^ (23 - Nat.log2 m) = 2 ^ 24 := by
    rw [← pow_add, Nat.add_right_comm, Nat.add_sub_of_le (by omega)]
  rw [← hlow, ← hhigh]
  exact ⟨Nat.mul_le_mul_right _ (Nat.log2_self_le hm0), Nat.mul_lt_mul_of_pos_right Nat.lt_log2_self (Nat.two_pow_pos _)⟩

theorem binadeValue_promoted {m : Nat} (hm : m < 2 ^ 10) (hm0 : m ≠ 0) :
    binadeValue 23 ((103 + Nat.log2 m) * 2 ^ 23 + m * 2 ^ (23 - Nat.log2 m) % 2 ^ 23) = m * 2 ^ 125 := by
  have hlog := log2_lt_ten hm hm0
  obtain ⟨hlow, hhigh⟩ := promoted_mantissa_bounds hm hm0
  have hcut : 2 ^ 23 + m * 2 ^ (23 - Nat.log2 m) % 2 ^ 23 = m * 2 ^ (23 - Nat.log2 m) := by omega
  rw [binadeValue_mul_add (Nat.mod_lt _ (by decide)), if_neg (by omega), hcut, Nat.mul_assoc, ← pow_add]
  congr 2
  omega

/-- Widening keeps the value (R44): a normal mantissa gains 13 zero bits, a subnormal one is moved up to the leading one. -/
theorem binadeValue_widenMagnitude (k : Nat) : binadeValue 23 (widenMagnitude k) = binadeValue 10 k * 2 ^ 125 := by
  have hm : k % 2 ^ 10 < 2 ^ 10 := Nat.mod_lt _ (by decide)
  rw [widenMagnitude, binadeValue.eq_def 10]
  generalize k / 2 ^ 10 = e
  generalize k % 2 ^ 10 = m at hm ⊢
  by_cases he : e = 0
  · rw [if_neg (not_not_intro he), if_pos he]
    by_cases hm0 : m = 0
    · simp [hm0, binadeValue]
    · rw [if_neg hm0, binadeValue_promoted hm hm0]
  · obtain ⟨q, rfl⟩ := Nat.exists_eq_succ_of_ne_zero he
    rw [if_pos he, if_neg he, binadeValue_mul_add (by omega), if_neg (by omega)]
    have hpow : 2 ^ (q + 1 + 112 - 1) = 2 ^ q * 2 ^ 112 := pow_add 2 q 112
    rw [hpow, Nat.succ_sub_one]
    ring

/-! ### The rounding law -/

/-- The index that narrowing gives a finite magnitude with index `n` (R43). -/
def narrowMagnitude (n : Nat) : Nat := halfMagnitudeOfRule ((n + 0x1000) / 2 ^ 23) ((n + 0x1000) % 2 ^ 23)

theorem narrowMagnitude_lt (n : Nat) : narrowMagnitude n < 2 ^ 15 :=
  halfMagnitudeOfRule_lt (Nat.mod_lt _ (by decide))

/-- Twice the value halfway between the codes `j` and `j + 1`, where narrowing is to pass from one to the other (R45). -/
def tie (j : Nat) : Nat := (binadeValue 10 j + binadeValue 10 (j + 1)) * 2 ^ 125

theorem tie_strictMono : StrictMono tie := fun j k hjk => by
  have hlow := binadeValue_strictMono 10 hjk
  have hhigh := binadeValue_strictMono 10 (Nat.succ_lt_succ hjk)
  exact Nat.mul_lt_mul_of_pos_right (Nat.add_lt_add hlow hhigh) (by decide)

/-- Between two codes of the normal range the tie is a pattern of its own: the 13 discarded bits are `0x1000`. -/
theorem tie_of_normal {j : Nat} (hj : 2 ^ 10 ≤ j) :
    tie j = 2 * binadeValue 23 (112 * 2 ^ 23 + j * 2 ^ 13 + 0x1000) := by
  obtain ⟨q, r, hr, rfl⟩ : ∃ q r, r < 2 ^ 10 ∧ j = (q + 1) * 2 ^ 10 + r :=
    ⟨j / 2 ^ 10 - 1, j % 2 ^ 10, Nat.mod_lt _ (by decide), by omega⟩
  have hpattern : 112 * 2 ^ 23 + ((q + 1) * 2 ^ 10 + r) * 2 ^ 13 + 0x1000 = (q + 113) * 2 ^ 23 + (r * 2 ^ 13 + 0x1000) := by
    ring
  have hstep : ((q + 1) * 2 ^ 10 + r) / 2 ^ 10 - 1 = q := by omega
  rw [hpattern, binadeValue_mul_add (by omega), if_neg (by omega), tie, binadeValue_succ, hstep, binadeValue_mul_add hr,
    if_neg (by omega), Nat.add_sub_cancel, Nat.add_sub_cancel (m := 1) (n := q + 112), pow_add]
  ring

theorem tie_of_subnormal {j : Nat} (hj : j < 2 ^ 10) : tie j = (2 * j + 1) * 2 ^ 125 := by
  have hj0 : binadeValue 10 j = j := by
    have := binadeValue_mul_add (w := 10) (q := 0) hj
    simpa using this
  have hstep : j / 2 ^ 10 - 1 = 0 := by omega
  rw [tie, binadeValue_succ, hstep, hj0]
  ring

/-- Saturation starts at the tie above the last code (R43, R45). -/
theorem lt_narrowMagnitude_iff_of_saturated {n j : Nat} (hn : 144 * 2 ^ 23 ≤ n + 0x1000) (hj : j < 0x7FFF) :
    j < narrowMagnitude n ↔ tie j ≤ 2 * binadeValue 23 n := by
  have hcode : narrowMagnitude n = 0x7FFF := if_pos (by omega)
  have hlast : tie 0x7FFF = 2 * binadeValue 23 (144 * 2 ^ 23 - 0x1000) := tie_of_normal (by decide)
  have hmono := (binadeValue_strictMono 23).monotone (show 144 * 2 ^ 23 - 0x1000 ≤ n by omega)
  have htie := tie_strictMono hj
  rw [hcode]
  omega

/-- In the normal range the code is the biased pattern without its 13 low bits, so it passes `j` at the tie's pattern. -/
theorem lt_narrowMagnitude_iff_of_normal {n j : Nat} (hlow : 113 * 2 ^ 23 ≤ n + 0x1000)
    (hhigh : n + 0x1000 < 144 * 2 ^ 23) :
    j < narrowMagnitude n ↔ tie j ≤ 2 * binadeValue 23 n := by
  have hcode : narrowMagnitude n = (n + 0x1000) / 2 ^ 13 - 112 * 2 ^ 10 := by
    rw [narrowMagnitude, halfMagnitudeOfRule, if_neg (by omega), if_pos (by omega)]
    omega
  rw [hcode]
  by_cases hj : 2 ^ 10 ≤ j
  · rw [tie_of_normal hj, Nat.mul_le_mul_left_iff (by decide), (binadeValue_strictMono 23).le_iff_le]
    omega
  · have htie : tie j ≤ tie (2 ^ 10 - 1) := tie_strictMono.monotone (by omega)
    have hfirst : tie (2 ^ 10 - 1) ≤ 2 * binadeValue 23 (113 * 2 ^ 23 - 0x1000) := by
      rw [tie_of_subnormal (by decide)]
      decide
    have hmono := (binadeValue_strictMono 23).monotone (show 113 * 2 ^ 23 - 0x1000 ≤ n by omega)
    constructor <;> intro <;> omega

/-- Doubling the precision, rounding down, adding one and halving is rounding with ties up (R43). -/
theorem lt_half_succ_div_iff {t d j : Nat} (hd : 0 < d) : j < (t / d + 1) / 2 ↔ (2 * j + 1) * d ≤ t := by
  rw [← Nat.le_div_iff_mul_le hd]
  omega

/-- Twice the value of a pattern whose exponent the bias leaves alone, by the biased word. -/
theorem two_mul_binadeValue_of_no_carry {n e : Nat} (he : (n + 0x1000) / 2 ^ 23 = e + 1)
    (hm : 0x1000 ≤ (n + 0x1000) % 2 ^ 23) :
    2 * binadeValue 23 n = (0x007FF000 + (n + 0x1000) % 2 ^ 23) * 2 ^ (e + 1) := by
  have hn : n = (e + 1) * 2 ^ 23 + ((n + 0x1000) % 2 ^ 23 - 0x1000) := by omega
  have hsum : 2 ^ 23 + ((n + 0x1000) % 2 ^ 23 - 0x1000) = 0x007FF000 + (n + 0x1000) % 2 ^ 23 := by omega
  rw [congrArg (binadeValue 23) hn, binadeValue_mul_add (by omega), if_neg (Nat.succ_ne_zero e), hsum,
    Nat.add_sub_cancel]
  ring

/-- Twice the value of a pattern from which the bias carries into the exponent, by the biased word. -/
theorem two_mul_binadeValue_of_carry {n e : Nat} (hpos : e ≠ 0) (he : (n + 0x1000) / 2 ^ 23 = e + 1)
    (hm : (n + 0x1000) % 2 ^ 23 < 0x1000) :
    2 * binadeValue 23 n = (2 ^ 24 - 0x1000 + (n + 0x1000) % 2 ^ 23) * 2 ^ e := by
  obtain ⟨q, rfl⟩ : ∃ q, e = q + 1 := Nat.exists_eq_succ_of_ne_zero hpos
  have hn : n = (q + 1) * 2 ^ 23 + (2 ^ 23 - 0x1000 + (n + 0x1000) % 2 ^ 23) := by omega
  have hsum : 2 ^ 23 + (2 ^ 23 - 0x1000 + (n + 0x1000) % 2 ^ 23) = 2 ^ 24 - 0x1000 + (n + 0x1000) % 2 ^ 23 := by omega
  rw [congrArg (binadeValue 23) hn, binadeValue_mul_add (by omega), if_neg hpos, hsum, Nat.add_sub_cancel]
  ring

/-- A carry puts the value right below a power of two, which no tie of the binade above or below separates from it. -/
theorem odd_mul_le_iff_of_carry {j d q m : Nat} (hd : 2 ^ 13 ≤ d) (hq : q * d = 2 ^ 23) (hm : m < 0x1000) :
    (2 * j + 1) * d ≤ 0x007FF000 + m ↔ (2 * j + 1) * (2 * d) ≤ 2 ^ 24 - 0x1000 + m := by
  have hdouble : (2 * j + 1) * (2 * d) = 2 * ((2 * j + 1) * d) := Nat.mul_left_comm _ _ _
  rcases Nat.lt_or_ge (2 * j + 1) q with h | h
  · have hle : (2 * j + 1 + 1) * d ≤ q * d := Nat.mul_le_mul_right d h
    rw [Nat.add_one_mul (2 * j + 1)] at hle
    constructor <;> intro <;> omega
  · have hle : q * d ≤ (2 * j + 1) * d := Nat.mul_le_mul_right d h
    constructor <;> intro <;> omega

/-- In the subnormal range the rule of R43 passes the code `j` at `(2j + 1)/2` of the smallest code. -/
theorem lt_narrowMagnitude_iff_odd_units {n j : Nat} (hlow : 102 * 2 ^ 23 ≤ n + 0x1000)
    (hhigh : n + 0x1000 < 113 * 2 ^ 23) : j < narrowMagnitude n ↔ (2 * j + 1) * 2 ^ 125 ≤ 2 * binadeValue 23 n := by
  obtain ⟨e, he, hbounds⟩ : ∃ e, (n + 0x1000) / 2 ^ 23 = e + 1 ∧ 101 ≤ e ∧ e ≤ 111 :=
    ⟨(n + 0x1000) / 2 ^ 23 - 1, by omega, by omega, by omega⟩
  have hshift : 125 - (e + 1) = 124 - e := by omega
  have hcode : narrowMagnitude n = ((0x007FF000 + (n + 0x1000) % 2 ^ 23) / 2 ^ (124 - e) + 1) / 2 := by
    rw [narrowMagnitude, halfMagnitudeOfRule, he, if_neg (by omega), if_neg (by omega), if_pos (by omega), hshift]
  rw [hcode, lt_half_succ_div_iff (Nat.two_pow_pos _)]
  rcases Nat.lt_or_ge ((n + 0x1000) % 2 ^ 23) 0x1000 with hm | hm
  · have hd : 2 ^ 13 ≤ 2 ^ (124 - e) := Nat.pow_le_pow_right (by decide) (by omega)
    have hq : 2 ^ (e - 101) * 2 ^ (124 - e) = 2 ^ 23 := by rw [← pow_add]; congr 1; omega
    have hunit : 2 ^ 125 = 2 * 2 ^ (124 - e) * 2 ^ e := by rw [← pow_succ', ← pow_add]; congr 1; omega
    rw [odd_mul_le_iff_of_carry hd hq hm, two_mul_binadeValue_of_carry (by omega) he hm, hunit,
      ← Nat.mul_assoc (2 * j + 1) (2 * _), Nat.mul_le_mul_right_iff (Nat.two_pow_pos e)]
  · have hunit : 2 ^ 125 = 2 ^ (124 - e) * 2 ^ (e + 1) := by rw [← pow_add]; congr 1; omega
    rw [two_mul_binadeValue_of_no_carry he hm, hunit, ← Nat.mul_assoc,
      Nat.mul_le_mul_right_iff (Nat.two_pow_pos (e + 1))]

theorem lt_narrowMagnitude_iff_of_subnormal {n j : Nat} (hlow : 102 * 2 ^ 23 ≤ n + 0x1000)
    (hhigh : n + 0x1000 < 113 * 2 ^ 23) : j < narrowMagnitude n ↔ tie j ≤ 2 * binadeValue 23 n := by
  rw [lt_narrowMagnitude_iff_odd_units hlow hhigh]
  rcases Nat.lt_or_ge j (2 ^ 10) with hj | hj
  · rw [tie_of_subnormal hj]
  · have hlast : 2 * binadeValue 23 n < 2 * binadeValue 23 (113 * 2 ^ 23 - 0x1000) :=
      Nat.mul_lt_mul_of_pos_left (binadeValue_strictMono 23 (by omega)) (by decide)
    have hend : 2 * binadeValue 23 (113 * 2 ^ 23 - 0x1000) < tie (2 ^ 10) := by decide
    have hend' : 2 * binadeValue 23 (113 * 2 ^ 23 - 0x1000) < (2 * 2 ^ 10 + 1) * 2 ^ 125 := by decide
    have htie : tie (2 ^ 10) ≤ tie j := tie_strictMono.monotone hj
    have hunits : (2 * 2 ^ 10 + 1) * 2 ^ 125 ≤ (2 * j + 1) * 2 ^ 125 := Nat.mul_le_mul_right _ (by omega)
    exact iff_of_false ((hlast.trans hend').trans_le hunits).not_ge ((hlast.trans hend).trans_le htie).not_ge

/-- Below half the smallest code the result is zero (R43, R48). -/
theorem lt_narrowMagnitude_iff_of_underflow {n j : Nat} (hn : n + 0x1000 < 102 * 2 ^ 23) :
    j < narrowMagnitude n ↔ tie j ≤ 2 * binadeValue 23 n := by
  have hcode : narrowMagnitude n = 0 := by
    rw [narrowMagnitude, halfMagnitudeOfRule, if_neg (by omega), if_neg (by omega), if_neg (by omega)]
  have hfirst : tie 0 ≤ tie j := tie_strictMono.monotone (Nat.zero_le j)
  have hbound : 2 * binadeValue 23 (102 * 2 ^ 23) = tie 0 := by
    rw [tie_of_subnormal (by decide)]
    decide
  have hmono := binadeValue_strictMono 23 (show n < 102 * 2 ^ 23 by omega)
  rw [hcode]
  omega

/-- The rounding law of R45: narrowing a finite magnitude passes from the code `j` to the next at the value halfway
between them, itself included. -/
theorem lt_narrowMagnitude_iff {n j : Nat} (hj : j < 0x7FFF) :
    j < narrowMagnitude n ↔ tie j ≤ 2 * binadeValue 23 n := by
  rcases Nat.lt_or_ge (n + 0x1000) (102 * 2 ^ 23) with h102 | h102
  · exact lt_narrowMagnitude_iff_of_underflow h102
  rcases Nat.lt_or_ge (n + 0x1000) (113 * 2 ^ 23) with h113 | h113
  · exact lt_narrowMagnitude_iff_of_subnormal h102 h113
  rcases Nat.lt_or_ge (n + 0x1000) (144 * 2 ^ 23) with h144 | h144
  · exact lt_narrowMagnitude_iff_of_normal h113 h144
  · exact lt_narrowMagnitude_iff_of_saturated h144 hj

end Sys2Proof.Machine
end

section
/-! The laws of the codec (R45, R46, R48) and of the comparison (R65), derived from the rounding law and from the order of
the values by index. -/

namespace Sys2Proof.Machine

/-! ### Finite patterns and widened codes -/

theorem isFinite32_iff (x : Word) : isFinite32 x = true ↔ x.toNat % 2 ^ 31 < 255 * 2 ^ 23 := by
  have hexp := exp32_toNat x
  simp only [isFinite32, bne_iff_ne, ne_eq, ← BitVec.toNat_inj, hexp]
  show ¬x.toNat / 2 ^ 23 % 2 ^ 8 = 255 ↔ _
  omega

/-- A finite operand keeps its sign under the bias, so only the magnitude is narrowed (R43, R45). -/
theorem f32ToF16_toNat_of_finite {x : Word} (hx : isFinite32 x = true) :
    (f32ToF16 x).toNat = x.toNat / 2 ^ 31 * 2 ^ 15 + narrowMagnitude (x.toNat % 2 ^ 31) := by
  have hfin := (isFinite32_iff x).1 hx
  have hlt := x.isLt
  have hsign : (x.toNat + 0x1000) % 2 ^ 32 / 2 ^ 31 = x.toNat / 2 ^ 31 := by omega
  have hexp : (x.toNat + 0x1000) % 2 ^ 32 / 2 ^ 23 % 2 ^ 8 = (x.toNat % 2 ^ 31 + 0x1000) / 2 ^ 23 := by omega
  have hman : (x.toNat + 0x1000) % 2 ^ 32 % 2 ^ 23 = (x.toNat % 2 ^ 31 + 0x1000) % 2 ^ 23 := by omega
  rw [f32ToF16_toNat, hsign, hexp, hman, narrowMagnitude]

theorem gridIndex_f32ToF16 {x : Word} (hx : isFinite32 x = true) :
    gridIndex (f32ToF16 x) = narrowMagnitude (x.toNat % 2 ^ 31) := by
  have hlt := narrowMagnitude_lt (x.toNat % 2 ^ 31)
  rw [gridIndex, f32ToF16_toNat_of_finite hx]
  omega

theorem sign16_f32ToF16 {x : Word} (hx : isFinite32 x = true) : sign16 (f32ToF16 x) = sign32 x := by
  have hlt := narrowMagnitude_lt (x.toNat % 2 ^ 31)
  apply bool_eq_of_toNat_eq
  rw [sign16_toNat, sign32_toNat, f32ToF16_toNat_of_finite hx]
  omega

/-- A widened code is zero or lies in the binades 103 to 143 (R44). -/
theorem widenMagnitude_range {k : Nat} (hk : k < 2 ^ 15) :
    widenMagnitude k = 0 ∨ (103 * 2 ^ 23 ≤ widenMagnitude k ∧ widenMagnitude k < 144 * 2 ^ 23) := by
  rw [widenMagnitude]
  split
  · exact .inr (by omega)
  split
  · exact .inl rfl
  · next hm =>
    have hlog := log2_lt_ten (Nat.mod_lt k (by decide)) hm
    have hcut : k % 2 ^ 10 * 2 ^ (23 - Nat.log2 (k % 2 ^ 10)) % 2 ^ 23 < 2 ^ 23 := Nat.mod_lt _ (by decide)
    exact .inr (by omega)

theorem mod_two_pow_15_lt (h : Half) : h.toNat % 2 ^ 15 < 2 ^ 15 := Nat.mod_lt _ (by decide)

theorem f16ToF32_magnitude (h : Half) : (f16ToF32 h).toNat % 2 ^ 31 = widenMagnitude (h.toNat % 2 ^ 15) := by
  have hrange := widenMagnitude_range (mod_two_pow_15_lt h)
  rw [f16ToF32_toNat]
  omega

theorem sign32_f16ToF32 (h : Half) : sign32 (f16ToF32 h) = sign16 h := by
  have hrange := widenMagnitude_range (mod_two_pow_15_lt h)
  apply bool_eq_of_toNat_eq
  rw [sign32_toNat, sign16_toNat, f16ToF32_toNat]
  omega

theorem isFinite32_f16ToF32 (h : Half) : isFinite32 (f16ToF32 h) = true := by
  have hrange := widenMagnitude_range (mod_two_pow_15_lt h)
  rw [isFinite32_iff, f16ToF32_magnitude]
  omega

theorem magnitude32_f16ToF32 (h : Half) : magnitude32 (f16ToF32 h) = magnitude16 h := by
  rw [magnitude32_eq, f16ToF32_magnitude, binadeValue_widenMagnitude, magnitude16_eq]

/-- The magnitude decides `x[30:0]`: the values by index are strictly increasing (R37). -/
theorem magnitude32_inj {x y : Word} : magnitude32 x = magnitude32 y ↔ x.toNat % 2 ^ 31 = y.toNat % 2 ^ 31 := by
  rw [magnitude32_eq, magnitude32_eq, (binadeValue_strictMono 23).injective.eq_iff]

theorem word_ext {x y : Word} (hsign : sign32 x = sign32 y) (hmag : magnitude32 x = magnitude32 y) : x = y := by
  have hs := congrArg Bool.toNat hsign
  rw [sign32_toNat, sign32_toNat] at hs
  rw [magnitude32_inj] at hmag
  apply BitVec.eq_of_toNat_eq
  omega

/-! ### Narrowing undoes widening -/

/-- A value on the grid lies above exactly the ties below its code. -/
theorem tie_le_grid_iff {j k : Nat} : tie j ≤ 2 * (binadeValue 10 k * 2 ^ 125) ↔ j < k := by
  have hmono := (binadeValue_strictMono 10).monotone
  have hstep := binadeValue_strictMono 10 (Nat.lt_add_one j)
  rw [tie, ← Nat.mul_assoc, Nat.mul_le_mul_right_iff (by decide)]
  rcases Nat.lt_or_ge j k with hjk | hjk
  · have hnext := hmono (show j + 1 ≤ k from hjk)
    exact iff_of_true (by omega) hjk
  · have hle := hmono hjk
    exact iff_of_false (by omega) (by omega)

/-- A magnitude on the grid is narrowed to its own code. -/
theorem narrowMagnitude_of_grid {n k : Nat} (hk : k < 2 ^ 15) (h : binadeValue 23 n = binadeValue 10 k * 2 ^ 125) :
    narrowMagnitude n = k := by
  have hlt := narrowMagnitude_lt n
  refine eq_of_forall_lt_iff fun j => ?_
  rcases Nat.lt_or_ge j 0x7FFF with hj | hj
  · rw [lt_narrowMagnitude_iff hj, h, tie_le_grid_iff]
  · omega

theorem f32ToF16_f16ToF32 (h : Half) : f32ToF16 (f16ToF32 h) = h := by
  have hk := mod_two_pow_15_lt h
  apply BitVec.eq_of_toNat_eq
  rw [f32ToF16_toNat_of_finite (isFinite32_f16ToF32 h), f16ToF32_magnitude,
    narrowMagnitude_of_grid hk (binadeValue_widenMagnitude _), ← sign32_toNat, sign32_f16ToF32, sign16_toNat]
  omega

/-- Settles O17: a widened code has the value of its code, so the rounding law gives the code back. -/
theorem narrowingUndoesWidening : Obligations.NarrowingUndoesWidening :=
  f32ToF16_f16ToF32

theorem exp32_f16ToF32_range (h : Half) :
    isZero32 (f16ToF32 h) = true ∨ (103 ≤ (exp32 (f16ToF32 h)).toNat ∧ (exp32 (f16ToF32 h)).toNat ≤ 143) := by
  have hmag := f16ToF32_magnitude h
  rcases widenMagnitude_range (mod_two_pow_15_lt h) with hzero | hrange
  · left
    rw [hzero] at hmag
    exact beq_iff_eq.2 (BitVec.eq_of_toNat_eq (by simpa using hmag))
  · right
    rw [exp32_toNat]
    omega

/-- Settles O20: sign and value part by part; injective because narrowing is a left inverse. -/
theorem wideningIsExactAndFinite : Obligations.WideningIsExactAndFinite :=
  ⟨fun h => ⟨sign32_f16ToF32 h, magnitude32_f16ToF32 h, exp32_f16ToF32_range h⟩,
    fun _ _ h => (show Function.LeftInverse f32ToF16 f16ToF32 from f32ToF16_f16ToF32).injective h⟩

/-- Settles O19: the code to look for is the narrowed one; a magnitude on the grid comes back with the sign, which both
directions keep. -/
theorem roundTripIsExactOnTheGridOnly : Obligations.RoundTripIsExactOnTheGridOnly := by
  intro x hx
  constructor
  · intro hround
    have hk := mod_two_pow_15_lt (f32ToF16 x)
    refine ⟨_, hk, ?_⟩
    rw [grid_eq hk, ← magnitude16_eq, ← magnitude32_f16ToF32, hround]
  · rintro ⟨k, hk, hgrid⟩
    have hvalue : binadeValue 23 (x.toNat % 2 ^ 31) = binadeValue 10 k * 2 ^ 125 := by
      rw [← magnitude32_eq, ← hgrid, grid_eq hk]
    have hcode : (f32ToF16 x).toNat % 2 ^ 15 = k := (gridIndex_f32ToF16 hx).trans (narrowMagnitude_of_grid hk hvalue)
    apply word_ext
    · rw [sign32_f16ToF32, sign16_f32ToF16 hx]
    · rw [magnitude32_f16ToF32, magnitude16_eq, hcode, ← hgrid, grid_eq hk]

/-! ### Rounding and order -/

theorem lt_gridIndex_iff {x : Word} (hx : isFinite32 x = true) {j : Nat} (hj : j < 0x7FFF) :
    j < gridIndex (f32ToF16 x) ↔ grid j + grid (j + 1) ≤ 2 * magnitude32 x := by
  rw [gridIndex_f32ToF16 hx, lt_narrowMagnitude_iff hj, tie, magnitude32_eq, grid_eq (by omega), grid_eq (by omega),
    Nat.add_mul]

theorem gridIndex_lt (h : Half) : gridIndex h < 2 ^ 15 := Nat.mod_lt _ (by decide)

theorem grid_mono {j k : Nat} (hjk : j ≤ k) (hk : k < 2 ^ 15) : grid j ≤ grid k := by
  rcases Nat.lt_or_eq_of_le hjk with h | rfl
  · exact (grid_lt_grid h hk).le
  · exact le_rfl

theorem gridIndex_of_saturated {x : Word} (hx : isFinite32 x = true) (h : saturationThreshold ≤ magnitude32 x) :
    gridIndex (f32ToF16 x) = 0x7FFF := by
  have hlast : grid 0x7FFE + grid (0x7FFE + 1) ≤ 2 * saturationThreshold := by decide
  have hlt : 0x7FFE < gridIndex (f32ToF16 x) := (lt_gridIndex_iff hx (by decide)).2 (by omega)
  have hle := gridIndex_lt (f32ToF16 x)
  omega

/-- A smaller code is no nearer: the magnitude is above the tie below its own code. -/
theorem distance_le_of_smaller_code {x : Word} (hx : isFinite32 x = true) {k : Nat} (hk : k < gridIndex (f32ToF16 x)) :
    distance (magnitude32 x) (grid (gridIndex (f32ToF16 x))) ≤ distance (magnitude32 x) (grid k) := by
  have hi := gridIndex_lt (f32ToF16 x)
  obtain ⟨j, hj⟩ : ∃ j, gridIndex (f32ToF16 x) = j + 1 := Nat.exists_eq_succ_of_ne_zero (by omega)
  have htie := (lt_gridIndex_iff hx (j := j) (by omega)).1 (by omega)
  have hkj : grid k ≤ grid j := grid_mono (by omega) (by omega)
  have hstep : grid j < grid (j + 1) := grid_lt_grid (Nat.lt_add_one j) (by omega)
  rw [hj, distance, distance]
  omega

/-- A larger code is farther: the magnitude is below the tie above its own code. -/
theorem distance_lt_of_larger_code {x : Word} (hx : isFinite32 x = true) {k : Nat} (hk : gridIndex (f32ToF16 x) < k)
    (hk15 : k < 2 ^ 15) :
    distance (magnitude32 x) (grid (gridIndex (f32ToF16 x))) < distance (magnitude32 x) (grid k) := by
  have htie := mt (lt_gridIndex_iff hx (j := gridIndex (f32ToF16 x)) (by omega)).2 (lt_irrefl _)
  have hkj : grid (gridIndex (f32ToF16 x) + 1) ≤ grid k := grid_mono hk hk15
  have hstep : grid (gridIndex (f32ToF16 x)) < grid k := grid_lt_grid hk hk15
  rw [distance, distance]
  omega

/-- Settles O18: smaller codes are no nearer, larger codes are farther. -/
theorem narrowingRoundsToNearestTiesAway : Obligations.NarrowingRoundsToNearestTiesAway := by
  intro x hx
  refine ⟨sign16_f32ToF16 hx, gridIndex_of_saturated hx, fun _ k hk => ?_⟩
  rcases lt_trichotomy k (gridIndex (f32ToF16 x)) with h | rfl | h
  · exact ⟨distance_le_of_smaller_code hx h, fun _ => h.le⟩
  · exact ⟨le_rfl, fun _ => le_rfl⟩
  · have hfar := distance_lt_of_larger_code hx h hk
    exact ⟨hfar.le, fun heq => absurd heq hfar.ne'⟩

theorem gridIndex_f32ToF16_mono {x y : Word} (hx : isFinite32 x = true) (hy : isFinite32 y = true)
    (hxy : x.toNat % 2 ^ 31 ≤ y.toNat % 2 ^ 31) : gridIndex (f32ToF16 x) ≤ gridIndex (f32ToF16 y) := by
  have hmag : magnitude32 x ≤ magnitude32 y := by
    rw [magnitude32_eq, magnitude32_eq]
    exact (binadeValue_strictMono 23).monotone hxy
  have hlt := gridIndex_lt (f32ToF16 x)
  refine le_of_forall_lt fun j hj => ?_
  have htie := (lt_gridIndex_iff hx (by omega)).1 hj
  exact (lt_gridIndex_iff hy (by omega)).2 (by omega)

theorem f16ToF32_lt_f16ToF32 {j k : Nat} (hjk : j < k) (hk : k < 2 ^ 15) :
    (f16ToF32 (BitVec.ofNat 16 j)).toNat < (f16ToF32 (BitVec.ofNat 16 k)).toNat := by
  have hwiden : ∀ i < 2 ^ 15, (f16ToF32 (BitVec.ofNat 16 i)).toNat = widenMagnitude i := fun i hi => by
    rw [f16ToF32_toNat, BitVec.toNat_ofNat, Nat.mod_eq_of_lt (a := i) (by omega), Nat.mod_eq_of_lt hi]
    omega
  rw [hwiden j (hjk.trans hk), hwiden k hk, ← (binadeValue_strictMono 23).lt_iff_lt, binadeValue_widenMagnitude,
    binadeValue_widenMagnitude]
  exact Nat.mul_lt_mul_of_pos_right (binadeValue_strictMono 10 hjk) (by decide)

/-- Settles O21: narrowing by the rounding law, widening and the grid by the order of the values. -/
theorem codecKeepsOrder : Obligations.CodecKeepsOrder :=
  ⟨fun _ _ => gridIndex_f32ToF16_mono, fun _ _ hjk hk => ⟨f16ToF32_lt_f16ToF32 hjk hk, grid_lt_grid hjk hk⟩⟩

/-! ### Special operands -/

theorem eq_ite_of_toNat {h : Half} {b : Bool} {neg pos : Half} (hneg : b.toNat = 1 → h.toNat = neg.toNat)
    (hpos : b.toNat = 0 → h.toNat = pos.toNat) : h = if b then neg else pos := by
  apply BitVec.eq_of_toNat_eq
  cases b
  · exact hpos rfl
  · exact hneg rfl

/-- Under the largest exponent a mantissa below `0x7FF000` takes the bias without a carry, and the rule saturates (R48). -/
theorem f32ToF16_of_low_special {x : Word} (hexp : exp32 x = 255) (hman : (man32 x).toNat < 0x7FF000) :
    f32ToF16 x = if sign32 x then 0xFFFF else 0x7FFF := by
  have hlt := x.isLt
  have he : x.toNat / 2 ^ 23 % 2 ^ 8 = 255 := (exp32_toNat x).symm.trans (congrArg BitVec.toNat hexp)
  rw [man32_toNat] at hman
  have hcode := f32ToF16_toNat x
  simp only [halfMagnitudeOfRule] at hcode
  rw [if_pos (by omega)] at hcode
  apply eq_ite_of_toNat <;> rw [sign32_toNat, hcode] <;> intro hsign
  · show _ = 0xFFFF
    omega
  · show _ = 0x7FFF
    omega

/-- A larger one carries through the exponent into the sign, and leaves a magnitude of zero (R48, D36). -/
theorem f32ToF16_of_high_special {x : Word} (hexp : exp32 x = 255) (hman : 0x7FF000 ≤ (man32 x).toNat) :
    f32ToF16 x = if sign32 x then 0x0000 else 0x8000 := by
  have hlt := x.isLt
  have he : x.toNat / 2 ^ 23 % 2 ^ 8 = 255 := (exp32_toNat x).symm.trans (congrArg BitVec.toNat hexp)
  rw [man32_toNat] at hman
  have hcode := f32ToF16_toNat x
  simp only [halfMagnitudeOfRule] at hcode
  rw [if_neg (by omega), if_neg (by omega), if_neg (by omega)] at hcode
  apply eq_ite_of_toNat <;> rw [sign32_toNat, hcode] <;> intro hsign
  · show _ = 0
    omega
  · show _ = 0x8000
    omega

/-- Below the first tie the code is zero, with the sign of the operand (R48). -/
theorem f32ToF16_of_tiny {x : Word} (hx : isFinite32 x = true) (htiny : magnitude32 x < 2 ^ 124) :
    f32ToF16 x = if sign32 x then 0x8000 else 0x0000 := by
  have hfirst : 2 * 2 ^ 124 ≤ grid 0 + grid (0 + 1) := by decide
  have hzero := mt (lt_gridIndex_iff hx (j := 0) (by decide)).1 (by omega)
  rw [gridIndex_f32ToF16 hx] at hzero
  have hcode := f32ToF16_toNat_of_finite hx
  apply eq_ite_of_toNat <;> rw [sign32_toNat, hcode] <;> intro hsign
  · show _ = 0x8000
    omega
  · show _ = 0
    omega

/-- Settles O22: the largest exponent with and without a carry into the sign, and the values below the first tie. -/
theorem specialOperandsOfNarrowing : Obligations.SpecialOperandsOfNarrowing :=
  fun _ => ⟨f32ToF16_of_low_special, f32ToF16_of_high_special, f32ToF16_of_tiny⟩

/-! ### The comparison -/

theorem isZero32_iff (x : Word) : isZero32 x = true ↔ magnitude32 x = 0 := by
  have hzero : magnitude32 x = magnitude32 0 ↔ x.toNat % 2 ^ 31 = 0 := magnitude32_inj
  have hbits : (x.extractLsb' 0 31).toNat = x.toNat % 2 ^ 31 := by simp
  rw [show (0 : Nat) = magnitude32 0 from rfl, hzero, ← hbits, isZero32, beq_iff_eq, ← BitVec.toNat_inj]
  rfl

theorem isNan32_of_finite {x : Word} (hx : isFinite32 x = true) : isNan32 x = false := by
  simp only [isFinite32, bne_iff_ne] at hx
  rw [isNan32, beq_false_of_ne hx, Bool.false_and]

/-- What is neither finite nor a NaN is an infinity, so not a zero. -/
theorem isZero32_of_not_finite {x : Word} (hx : isFinite32 x = false) : isZero32 x = false := by
  by_contra hzero
  rw [Bool.not_eq_false, isZero32_iff, show (0 : Nat) = magnitude32 0 from rfl, magnitude32_inj] at hzero
  have hfin : isFinite32 x = true := (isFinite32_iff x).2 (hzero ▸ by decide)
  rw [hx] at hfin
  cases hfin

theorem fneq_of_numbers {a b : Word} (ha : isNan32 a = false) (hb : isNan32 b = false) :
    fneq a b = false ↔ a = b ∨ (isZero32 a = true ∧ isZero32 b = true) := by
  rw [fneq, ha, hb]
  by_cases hab : a = b <;> simp [hab]

theorem natAbs_signedMagnitude (x : Word) : (signedMagnitude x).natAbs = magnitude32 x := by
  rw [signedMagnitude]
  split
  · rw [Int.natAbs_neg, Int.natAbs_natCast]
  · exact Int.natAbs_natCast _

/-- Two numbers are equal when the patterns are, or when both are zeros (R37, R65). -/
theorem signedMagnitude_eq_iff (a b : Word) :
    signedMagnitude a = signedMagnitude b ↔ a = b ∨ (magnitude32 a = 0 ∧ magnitude32 b = 0) := by
  constructor
  · intro h
    have hmag : magnitude32 a = magnitude32 b := by
      rw [← natAbs_signedMagnitude a, ← natAbs_signedMagnitude b, h]
    by_cases hsign : sign32 a = sign32 b
    · exact .inl (word_ext hsign hmag)
    · have hother : sign32 a = !sign32 b := Bool.eq_not_of_ne hsign
      right
      simp only [signedMagnitude, hother, hmag] at h
      cases hb : sign32 b <;> simp [hb] at h <;> omega
  · rintro (rfl | ⟨ha, hb⟩)
    · rfl
    · simp [signedMagnitude, ha, hb]

theorem fneq_symm (a b : Word) : fneq a b = fneq b a := by
  simp only [fneq]
  rw [Bool.or_comm (isNan32 a), Bool.and_comm (isZero32 a), bne_comm]

/-- An infinity is equal to its own pattern only (R65). -/
theorem fneq_of_infinity {a b : Word} (hfin : isFinite32 a = false) (ha : isNan32 a = false) (hb : isNan32 b = false) :
    fneq a b = false ↔ a = b := by
  rw [fneq_of_numbers ha hb, isZero32_of_not_finite hfin]
  simp

/-- Settles O41: finite patterns by their numbers, a NaN by its own clause, an infinity because it is no zero. -/
theorem comparisonIsFloatNotEqual : Obligations.ComparisonIsFloatNotEqual := by
  refine ⟨fun a b ha hb => ?_, fun a b ha => ?_, fun a b hfin ha hb => ?_⟩
  · rw [fneq_of_numbers (isNan32_of_finite ha) (isNan32_of_finite hb), signedMagnitude_eq_iff, isZero32_iff, isZero32_iff]
  · have hab : fneq a b = true := by simp [fneq, ha]
    exact ⟨hab, (fneq_symm b a).trans hab⟩
  · rw [fneq_symm b a]
    exact ⟨fneq_of_infinity hfin ha hb, fneq_of_infinity hfin ha hb⟩

end Sys2Proof.Machine
end
